-- ==== Sys2Proof/Word.lean ====
section
/-! DEFINITION. Bytes and fixed-length byte sequences (00_scope.md R7). -/

namespace Sys2Proof

/-- A byte, 0 to 255; bit 0 is the least significant bit (R7). -/
abbrev Byte := BitVec 8

/-- `Bytes n` of R7: exactly `n` bytes, indexed from 0 to `n - 1`. -/
abbrev Bytes (n : Nat) := Vector Byte n

/-- A cipher key or block: 16 bytes (R6, R100). -/
abbrev Block := Bytes 16

end Sys2Proof
end

