-- ==== Sys2Proof/Syntax.lean ====
section
/-! DEFINITION. The command set MGE-1: one constructor per row of spec/opcode_table.json (30_encoding.md R81, R82). -/

namespace Sys2Proof

/-- The seven legal commands. No command has an operand field (R85); GEN's bit U makes two rows of the table. -/
inductive Instr where
  /-- ENC, 0x01: raw single-block encryption (R103). -/
  | enc
  /-- DOPC, 0x02: derive OPC (R150). -/
  | dopc
  /-- EVAL, 0x03: the Milenage core (R161). -/
  | eval
  /-- FRES, 0x04: fold the response (R180). -/
  | fres
  /-- FCK, 0x05: fold the cipher key (R182). -/
  | fck
  /-- GEN with U = 0, 0x06: a triplet with OPC derived (R190). -/
  | gen
  /-- GEN.U, 0x16: a triplet with the OPC slot as it stands (R190). -/
  | genU
deriving DecidableEq, Repr, Inhabited

end Sys2Proof
end

