-- ==== Sys2Proof/Machine/Format.lean ====
section
/-! DEFINITION. The one command format CMD8 and the command names (30_encoding.md R80, R81, R86). -/

namespace Sys2Proof.Machine

/-- The fields of a command byte (R80): OPC4 in bits 3:0, U in bit 4, Z in bits 7:5. -/
structure Cmd8 where
  opc4 : BitVec 4
  u : BitVec 1
  z : BitVec 3
deriving DecidableEq, Repr

/-- The fields read from a byte (R80). -/
def Cmd8.ofByte (c : Byte) : Cmd8 where
  opc4 := c.extractLsb' 0 4
  u := c.extractLsb' 4 1
  z := c.extractLsb' 5 3

/-- The byte `z:u:opc4` (R80, R12). -/
def Cmd8.toByte (f : Cmd8) : Byte :=
  f.z ++ f.u ++ f.opc4

/-- The opcode map of R81 and the bit U of R82. -/
def fieldsOf : Instr → Cmd8
  | .enc => ⟨0x1#4, 0#1, 0#3⟩
  | .dopc => ⟨0x2#4, 0#1, 0#3⟩
  | .eval => ⟨0x3#4, 0#1, 0#3⟩
  | .fres => ⟨0x4#4, 0#1, 0#3⟩
  | .fck => ⟨0x5#4, 0#1, 0#3⟩
  | .gen => ⟨0x6#4, 0#1, 0#3⟩
  | .genU => ⟨0x6#4, 1#1, 0#3⟩

/-- The mnemonic of a command (R86). -/
def mnemonicOf : Instr → String
  | .enc => "ENC"
  | .dopc => "DOPC"
  | .eval => "EVAL"
  | .fres => "FRES"
  | .fck => "FCK"
  | .gen => "GEN"
  | .genU => "GEN.U"

end Sys2Proof.Machine
end

