-- ==== Sys2Proof/Machine/Bytes.lean ====
section
/-! DEFINITION. The byte-sequence operations of 00_scope.md section 5: XOR, rotation, perturbation, slices and the
integer reading. -/

namespace Sys2Proof.Machine

/-- `a ⊕ b` of R8, bytewise on equal lengths. -/
def xorB {n : Nat} (a b : Bytes n) : Bytes n :=
  Vector.zipWith (fun x y => x ^^^ y) a b

/-- `rotb(v, k)` of R9: byte `j` of the result is `v[(j + k) mod 16]`. -/
def rotb (v : Block) (k : Nat) : Block :=
  Vector.ofFn fun j : Fin 16 => v[(j.val + k) % 16]'(Nat.mod_lt _ (by decide))

/-- `flip(v, c)` of R10: the last byte perturbed by XOR, every other byte kept. -/
def flip (v : Block) (c : Byte) : Block :=
  v.set 15 (v[15] ^^^ c)

/-- `v[8..16)` of R7: the last eight bytes. -/
def lastHalf (v : Block) : Bytes 8 :=
  Vector.ofFn fun i : Fin 8 => v[i.val + 8]'(by omega)

/-- `int(v)` of R11: byte 0 is the most significant. -/
def intOf {n : Nat} (v : Bytes n) : Nat :=
  v.toList.foldl (fun acc b => acc * 256 + b.toNat) 0

/-- The `n` bytes whose integer reading is `v mod 256^n` (R11): the text form of a buffer, written as one number. -/
def ofInt (n v : Nat) : Bytes n :=
  Vector.ofFn fun i : Fin n => BitVec.ofNat 8 (v / 256 ^ (n - 1 - i.val))

/-- `n` bytes of 0x00: the reset contents of a slot (R36). -/
def zeros (n : Nat) : Bytes n :=
  Vector.replicate n 0#8

end Sys2Proof.Machine
end

