-- ==== Sys2Proof/Machine/Slots.lean ====
section
/-! DEFINITION. The eleven operand slots and their declared-length registers (10_state.md R20 to R23). -/

namespace Sys2Proof.Machine

/-- The slots of R20, in the order of their indexes. -/
inductive Slot where
  | ki | op | opc | rand | blk | out | res | sres | ck | ik | kc
deriving DecidableEq, Repr, Inhabited

/-- Every slot, in index order (R20). -/
def Slot.all : List Slot :=
  [.ki, .op, .opc, .rand, .blk, .out, .res, .sres, .ck, .ik, .kc]

/-- `cap(s)` of R20, in bytes. -/
@[reducible] def Slot.cap : Slot → Nat
  | .ki | .op | .opc | .rand | .blk | .out => 16
  | .res => 8
  | .sres => 4
  | .ck | .ik => 16
  | .kc => 8

/-- The index of a slot (R20). -/
def Slot.index : Slot → Nat
  | .ki => 0 | .op => 1 | .opc => 2 | .rand => 3 | .blk => 4 | .out => 5
  | .res => 6 | .sres => 7 | .ck => 8 | .ik => 9 | .kc => 10

/-- `base(s)` of R20: the first data address. -/
def Slot.base : Slot → Nat
  | .ki => 0x00 | .op => 0x10 | .opc => 0x20 | .rand => 0x30 | .blk => 0x40 | .out => 0x50
  | .res => 0x60 | .sres => 0x68 | .ck => 0x70 | .ik => 0x80 | .kc => 0x90

/-- The data registers `x[s] : Bytes cap(s)` (R20, R33). -/
structure Slots where
  ki : Block
  op : Block
  opc : Block
  rand : Block
  blk : Block
  out : Block
  res : Bytes 8
  sres : Bytes 4
  ck : Block
  ik : Block
  kc : Bytes 8
deriving DecidableEq, Repr

/-- `x[s]`. -/
def Slots.get (x : Slots) : (s : Slot) → Bytes s.cap
  | .ki => x.ki | .op => x.op | .opc => x.opc | .rand => x.rand | .blk => x.blk | .out => x.out
  | .res => x.res | .sres => x.sres | .ck => x.ck | .ik => x.ik | .kc => x.kc

/-- `x[s] <- v`. -/
def Slots.set (x : Slots) : (s : Slot) → Bytes s.cap → Slots
  | .ki, v => { x with ki := v }
  | .op, v => { x with op := v }
  | .opc, v => { x with opc := v }
  | .rand, v => { x with rand := v }
  | .blk, v => { x with blk := v }
  | .out, v => { x with out := v }
  | .res, v => { x with res := v }
  | .sres, v => { x with sres := v }
  | .ck, v => { x with ck := v }
  | .ik, v => { x with ik := v }
  | .kc, v => { x with kc := v }

/-- Every data byte 0x00 (R36). -/
def Slots.zero : Slots where
  ki := zeros 16
  op := zeros 16
  opc := zeros 16
  rand := zeros 16
  blk := zeros 16
  out := zeros 16
  res := zeros 8
  sres := zeros 4
  ck := zeros 16
  ik := zeros 16
  kc := zeros 8

/-- The declared-length registers `len[s]`, 8 bits each (R21). -/
structure Lens where
  ki : Byte
  op : Byte
  opc : Byte
  rand : Byte
  blk : Byte
  out : Byte
  res : Byte
  sres : Byte
  ck : Byte
  ik : Byte
  kc : Byte
deriving DecidableEq, Repr

/-- `len[s]`. -/
def Lens.get (l : Lens) : Slot → Byte
  | .ki => l.ki | .op => l.op | .opc => l.opc | .rand => l.rand | .blk => l.blk | .out => l.out
  | .res => l.res | .sres => l.sres | .ck => l.ck | .ik => l.ik | .kc => l.kc

/-- `len[s] <- n`. -/
def Lens.set (l : Lens) : Slot → Byte → Lens
  | .ki, n => { l with ki := n }
  | .op, n => { l with op := n }
  | .opc, n => { l with opc := n }
  | .rand, n => { l with rand := n }
  | .blk, n => { l with blk := n }
  | .out, n => { l with out := n }
  | .res, n => { l with res := n }
  | .sres, n => { l with sres := n }
  | .ck, n => { l with ck := n }
  | .ik, n => { l with ik := n }
  | .kc, n => { l with kc := n }

/-- Every declared length 0 (R36). -/
def Lens.zero : Lens where
  ki := 0#8
  op := 0#8
  opc := 0#8
  rand := 0#8
  blk := 0#8
  out := 0#8
  res := 0#8
  sres := 0#8
  ck := 0#8
  ik := 0#8
  kc := 0#8

/-- One staged write of a command (R202): the whole data of one slot. Its `len` follows from R21. -/
structure SlotWrite where
  slot : Slot
  data : Bytes slot.cap
deriving DecidableEq, Repr

end Sys2Proof.Machine
end

