-- ==== Sys2Proof/Machine/HostSyntax.lean ====
section
/-! DEFINITION. The host program: variables, statements, lines and the bus transactions it performs
(30_encoding.md R87). -/

namespace Sys2Proof.Machine

/-- A host variable: one with a name (`rd A -> h`), or `S[i]` of the pseudo-instruction `read S` (R87, R88). -/
inductive HVar where
  | named (name : String)
  | slotByte (s : Slot) (i : Nat)
deriving DecidableEq, Repr

/-- The basic statements of R87, and one bus access of any width, which no line of R87 spells: R56 says what a model does
with it (DESIGN CHOICE, log entry 11, safe). -/
inductive HostStmt where
  /-- `wr A, V`. -/
  | wr (a v : Byte)
  /-- `rd A -> h`. -/
  | rd (a : Byte) (h : HVar)
  /-- `poll A, M, V`. -/
  | poll (a m v : Byte)
  /-- `jnz h, M, L`. -/
  | jnz (h : HVar) (m : Byte) (l : String)
  /-- `jmp L`. -/
  | jmp (l : String)
  /-- `MemRead(A, n)` for any width `n`. -/
  | readWide (a : Byte) (n : Nat)
  /-- `MemWrite(A, n, V)` for any width `n`. -/
  | writeWide (a : Byte) (n v : Nat)
deriving DecidableEq, Repr

/-- A line of R87: an optional label and one statement. -/
structure HostLine where
  label : Option String
  stmt : HostStmt
deriving DecidableEq, Repr

/-- A bus transaction of R87: `W <addr> <data>` or `R <addr> -> <data>`. -/
inductive BusOp where
  | w (a d : Byte)
  | r (a d : Byte)
deriving DecidableEq, Repr

end Sys2Proof.Machine
end

