-- ==== Sys2Proof/WellFormed.lean ====
section
/-! DEFINITION. Which command formats and which host programs are well-formed (30_encoding.md R80 to R83, R87;
20_memory.md R56). -/

namespace Sys2Proof

open Machine

/-- A legal combination of fields: Z is 000, OPC4 is 1 to 6, and U = 1 only with OPC4 = 6 (R80 to R82). -/
def fieldsLegal (f : Cmd8) : Bool :=
  f.z == 0#3 && (1 ≤ f.opc4.toNat && f.opc4.toNat ≤ 6) && (f.u == 0#1 || f.opc4 == 0x6#4)

/-- An instruction is well-formed when its fields are legal. -/
def instrWF (i : Instr) : Bool :=
  fieldsLegal (fieldsOf i)

/-- The labels of a program, in order. -/
def labelsOf (p : List HostLine) : List String :=
  p.filterMap (·.label)

/-- A statement of a program with labels `ls`: its jump has a target, and its access is one byte wide (R56, R87). -/
def stmtWF (ls : List String) : HostStmt → Bool
  | .wr _ _ => true
  | .rd _ _ => true
  | .poll _ _ _ => true
  | .jnz _ _ l => ls.contains l
  | .jmp l => ls.contains l
  | .readWide _ n => n == 1
  | .writeWide _ n _ => n == 1

/-- A host program is well-formed when no label stands twice and every statement is (R87). -/
def programWF (p : List HostLine) : Bool :=
  decide (labelsOf p).Nodup && p.all fun line => stmtWF (labelsOf p) line.stmt

end Sys2Proof
end

