-- ==== Sys2Proof/Decode.lean ====
section
/-! DEFINITION. Decoding a command byte and encoding a command (30_encoding.md R80 to R84). -/

namespace Sys2Proof

/-- What a command byte says (R84): a legal command, or ILLEGAL of that byte. -/
inductive Command where
  | legal (i : Instr)
  | illegal (c : Byte)
deriving DecidableEq, Repr

/-- `decode` of R84, total on all 256 byte values. -/
def decode (c : Byte) : Command :=
  if c = 0x01#8 then .legal .enc
  else if c = 0x02#8 then .legal .dopc
  else if c = 0x03#8 then .legal .eval
  else if c = 0x04#8 then .legal .fres
  else if c = 0x05#8 then .legal .fck
  else if c = 0x06#8 then .legal .gen
  else if c = 0x16#8 then .legal .genU
  else .illegal c

/-- The command byte of an instruction, its fields laid out by the format of R80. -/
def encode (i : Instr) : Byte :=
  (Machine.fieldsOf i).toByte

/-- The command byte among the low `nbits` bits of `w`, higher bits read as 0: a command is one byte (R80). -/
def tableByte (nbits w : Nat) : Byte :=
  BitVec.ofNat 8 (w % 2 ^ nbits)

/-- The instruction the decoder reads from an opcode-table word (one byte, R80). -/
def decodeTableWord (nbits w : Nat) : Option Instr :=
  match decode (tableByte nbits w) with
  | .legal i => some i
  | .illegal _ => none

end Sys2Proof
end

