-- ==== Sys2Proof/Machine/Aes.lean ====
section
/-! DEFINITION. AES-128 encryption, the function `E` of the cipher unit (41_aes128.md R120 to R128). -/

namespace Sys2Proof.Machine

/-! ### GF(2^8), R122 -/

/-- `xtime` of R122: multiplication by 0x02 modulo the pattern 0x11B. -/
def xtime (a : Byte) : Byte :=
  (a <<< 1) ^^^ (if a.getLsbD 7 then 0x1B#8 else 0x00#8)

/-- `a • 0x03 = xtime(a) xor a` (R122). -/
def times3 (a : Byte) : Byte := xtime a ^^^ a

/-- `a` times the polynomial whose coefficients are `bits`, lowest degree first (R122). -/
def gfMulBits (a : Byte) : List Bool → Byte
  | [] => 0x00#8
  | b :: bits => (if b then a else 0x00#8) ^^^ gfMulBits (xtime a) bits

/-- `a • b` of R122: bit `k` of `b` is the coefficient of `x^k`. -/
def gfMul (a b : Byte) : Byte :=
  gfMulBits a ((List.range 8).map fun k => b.getLsbD k)

/-- `inv(a)` of R122, computed as the power `a^254` (DEDUCED, log entry 13); the statement FieldOperationsAgree says that it is the `b` with
`a • b = 0x01`, and 0x00 for 0x00. Only `sboxFormula` uses it: the machine's S-box is R123's table. -/
def gfInv (a : Byte) : Byte :=
  let sq := fun x => gfMul x x
  let a2 := sq a
  let a3 := gfMul a2 a
  let a12 := sq (sq a3)
  let a15 := gfMul a12 a3
  let a240 := sq (sq (sq (sq a15)))
  gfMul (gfMul a240 a12) a2

/-! ### The S-box, R123 -/

/-- The S-box of R123 by its formula, `b = inv(a)` under five rotations and the constant 0x63. -/
def sboxFormula (a : Byte) : Byte :=
  let b := gfInv a
  b ^^^ b.rotateLeft 1 ^^^ b.rotateLeft 2 ^^^ b.rotateLeft 3 ^^^ b.rotateLeft 4 ^^^ 0x63#8

/-- The rows of R123's table, row `h` the sixteen entries of high nibble `h`, column 0 first. -/
def sboxRows : List Nat :=
  [0x637c777bf26b6fc53001672bfed7ab76, 0xca82c97dfa5947f0add4a2af9ca472c0,
   0xb7fd9326363ff7cc34a5e5f171d83115, 0x04c723c31896059a071280e2eb27b275] ++
  [0x09832c1a1b6e5aa0523bd6b329e32f84, 0x53d100ed20fcb15b6acbbe394a4c58cf,
   0xd0efaafb434d338545f9027f503c9fa8, 0x51a3408f929d38f5bcb6da2110fff3d2] ++
  [0xcd0c13ec5f974417c4a77e3d645d1973, 0x60814fdc222a908846eeb814de5e0bdb,
   0xe0323a0a4906245cc2d3ac629195e479, 0xe7c8376d8dd54ea96c56f4ea657aae08] ++
  [0xba78252e1ca6b4c6e8dd741f4bbd8b8a, 0x703eb5664803f60e613557b986c11d9e,
   0xe1f8981169d98e949b1e87e9ce5528df, 0x8ca1890dbfe6426841992d0fb054bb16]

/-- `S(a)` of R123 by its table: the row is the high nibble of `a`, the column its low nibble. -/
def sbox (a : Byte) : Byte :=
  BitVec.ofNat 8 (sboxRows.getD (a.toNat / 16) 0 >>> (8 * (15 - a.toNat % 16)))

/-! ### The state array, R121 -/

/-- The state of R121: four rows of four bytes, `st[r][c]`. -/
abbrev AesState := Vector (Vector Byte 4) 4

/-- A state array from its entries. -/
def mkState (f : Fin 4 → Fin 4 → Byte) : AesState :=
  Vector.ofFn fun r => Vector.ofFn fun c => f r c

/-- `st[r][c]`. -/
def entry (st : AesState) (r c : Fin 4) : Byte := (st.get r).get c

/-- `ToState(b)` of R121: `st[r][c] = b[r + 4c]`. -/
def toAesState (b : Block) : AesState :=
  mkState fun r c => b[r.val + 4 * c.val]'(by omega)

/-- `FromState(st)` of R121: `o[r + 4c] = st[r][c]`. -/
def fromAesState (st : AesState) : Block :=
  Vector.ofFn fun i : Fin 16 => entry st ⟨i.val % 4, by omega⟩ ⟨i.val / 4, by omega⟩

/-! ### The round steps, R123 to R126 -/

/-- `SubBytes` (R123). -/
def subBytes (st : AesState) : AesState :=
  mkState fun r c => sbox (entry st r c)

/-- `ShiftRows` (R124): row `r` rotated left by `r` positions. -/
def shiftRows (st : AesState) : AesState :=
  mkState fun r c => entry st r (c + r)

/-- One row of `MixColumns` (R125), from the column's four bytes. -/
def mixColumn (a : Fin 4 → Byte) : Fin 4 → Byte
  | 0 => xtime (a 0) ^^^ times3 (a 1) ^^^ a 2 ^^^ a 3
  | 1 => a 0 ^^^ xtime (a 1) ^^^ times3 (a 2) ^^^ a 3
  | 2 => a 0 ^^^ a 1 ^^^ xtime (a 2) ^^^ times3 (a 3)
  | 3 => times3 (a 0) ^^^ a 1 ^^^ a 2 ^^^ xtime (a 3)

/-- `MixColumns` (R125). -/
def mixColumns (st : AesState) : AesState :=
  mkState fun r c => mixColumn (fun k => entry st k c) r

/-! ### The key schedule, R127 and R128 -/

/-- A word of the key schedule: four bytes, byte 0 first (R126). -/
abbrev KeyWord := Bytes 4

/-- `Rcon[j]` of R128 for `j` at least 1: `xtime` applied `j - 1` times to 0x01. -/
def rcon (j : Nat) : Byte :=
  Nat.iterate xtime (j - 1) 0x01#8

/-- `RotWord` of R127. -/
def rotWord (w : KeyWord) : KeyWord := #v[w[1], w[2], w[3], w[0]]

/-- `SubWord` of R127: `S` on each byte. -/
def subWord (w : KeyWord) : KeyWord := #v[sbox w[0], sbox w[1], sbox w[2], sbox w[3]]

/-- `w[i]` of R127 for `i` at least 4, from the words before it, newest first. -/
def nextKeyWord (prev : List KeyWord) (i : Nat) : KeyWord :=
  let t := prev.getD 0 (zeros 4)
  let t := if i % 4 = 0 then
      let u := subWord (rotWord t)
      u.set 0 (u[0] ^^^ rcon (i / 4))
    else t
  xorB (prev.getD 3 (zeros 4)) t

/-- The first `4 + n` words of R127, newest first. -/
def keyWordsRev (key : Block) : Nat → List KeyWord
  | 0 => [#v[key[12], key[13], key[14], key[15]], #v[key[8], key[9], key[10], key[11]],
          #v[key[4], key[5], key[6], key[7]], #v[key[0], key[1], key[2], key[3]]]
  | n + 1 =>
    let prev := keyWordsRev key n
    nextKeyWord prev (n + 4) :: prev

/-- `KeyExpansion(key)` of R127: the 44 words `w[0..43]`. -/
def keyExpansion (key : Block) : List KeyWord :=
  (keyWordsRev key 40).reverse

/-- `AddRoundKey(st, w, rd)` of R126. -/
def addRoundKey (st : AesState) (w : List KeyWord) (rd : Nat) : AesState :=
  mkState fun r c => entry st r c ^^^ (w.getD (4 * rd + c.val) (zeros 4)).get r

/-! ### The cipher, R120 -/

/-- One of the rounds 1 to 9 of R120. -/
def aesRound (w : List KeyWord) (st : AesState) (rd : Nat) : AesState :=
  addRoundKey (mixColumns (shiftRows (subBytes st))) w rd

/-- `E(key, block)` of R120: AES-128 encryption, ten rounds, the last without `MixColumns`. -/
def E (key block : Block) : Block :=
  let w := keyExpansion key
  let st := addRoundKey (toAesState block) w 0
  let st := [1, 2, 3, 4, 5, 6, 7, 8, 9].foldl (aesRound w) st
  fromAesState (addRoundKey (shiftRows (subBytes st)) w 10)

end Sys2Proof.Machine
end

