-- ==== Sys2Proof/Config.lean ====
section
/-! DEFINITION. The parameters of the hardware (00_scope.md R6) and the values the spec leaves open. -/

namespace Sys2Proof

/-- One answer of the cipher unit's failure oracle (60_exceptions.md R208). -/
inductive Draw where
  | ok
  | fail
deriving DecidableEq, Repr, Inhabited

/-- The draw of an invocation for which State lists none: free, by the count of draws used before it (DESIGN
CHOICE, log entry 2, safe). -/
opaque Config.freeDraw : Nat → Draw

/-- The value of a host variable that no `rd` has set: free (DESIGN CHOICE, log entry 6, safe). -/
opaque Config.unsetVar : Machine.HVar → Byte

/-- `WINDOW_BASE` (20_memory.md R52), OPEN: the platform's placement of the window (log entry 7, safe). -/
opaque Config.windowBase : Nat

/-- The platform address of a window address (R52). No rule of the spec, and no definition of this model, depends on it. -/
def Config.platformAddr (a : Byte) : Nat :=
  Config.windowBase + a.toNat

end Sys2Proof
end

