-- ==== Sys2Proof/Machine/State.lean ====
section
/-! DEFINITION. The machine's state as plain data: the record of 10_state.md R33, and beside it the host agent, the
failure oracle and the order of the agents' moves, which the step relation of 60_exceptions.md R208 takes as inputs. -/

namespace Sys2Proof.Machine

/-- The errors a command can report (60_exceptions.md R200). -/
inductive Err where
  | invalidLength
  | invalidKeyLength
  | invalidBlockLength
  | cipherFailure
  | illegalCommand
deriving DecidableEq, Repr

/-- The architectural state of one MGE instance, R33: "Nothing else is state". STATUS.BUSY is `pend.isSome`. -/
structure Mge where
  /-- The data registers (R20). -/
  x : Slots
  /-- The declared-length registers (R21). -/
  len : Lens
  /-- STATUS.DONE (R25). -/
  done : Bool
  /-- STATUS.ERR (R25). -/
  err : Bool
  /-- STATUS.OVR (R25). -/
  ovr : Bool
  /-- ERRCODE (R26). -/
  errcode : Byte
  /-- NCALLS (R27). -/
  ncalls : Byte
  /-- PEND (R31): the byte of the pending command. -/
  pend : Option Byte
deriving DecidableEq, Repr

/-- The failure oracle: the parameter `CIPHER_MAY_FAIL` (R6), the draws to come (R208), and how many have been used. The
model's own fields (DESIGN CHOICE, log entries 1 and 2). -/
structure Oracle where
  mayFail : Bool
  draws : List Draw
  drawn : Nat
deriving DecidableEq, Repr

/-- The host agent (R208): its program and position (R87), its variables, and the bus transactions it has made, newest
first. The model's own fields (DESIGN CHOICE, log entry 3). -/
structure HostAgent where
  prog : List HostLine
  pos : Nat
  vars : List (HVar × Byte)
  trace : List BusOp
deriving DecidableEq, Repr

/-- Who makes a step (R208): the host, the engine, or the environment with its reset event (R230). -/
inductive Turn where
  | host
  | engine
  | reset
deriving DecidableEq, Repr

/-- The whole state. -/
structure State where
  /-- The MGE instance (R33). -/
  mge : Mge
  /-- The engine's input. -/
  oracle : Oracle
  /-- The host agent. -/
  host : HostAgent
  /-- The agents' coming moves, the next first (R208: "Any enabled agent may take the next step"; DESIGN CHOICE, log entry 4). -/
  agenda : List Turn
deriving DecidableEq, Repr

/-- Why the machine stops. MGE itself has no stuck state (R208, R209); only the host program can be stuck. -/
inductive Fault where
  /-- Raised by the host agent's `jmp` and `jnz` when no line carries the label: R87 gives such a jump no meaning. Safe:
  the model stops and claims nothing. -/
  | undefinedLabel (l : String)
deriving DecidableEq, Repr

/-- Why a step has no meaning. -/
inductive Refusal where
  /-- Raised by exec's arm of an instruction that has no meaning yet. Safe: nothing is claimed of it. -/
  | notModelled (mnemonic : String)
  /-- Raised by the host agent's access of a width other than one byte: R56, "A model refuses any host access of another
  width". Safe: nothing is claimed of it. -/
  | accessWidth (n : Nat)
deriving DecidableEq, Repr

/-- MGE after reset (R36). -/
def Mge.reset : Mge where
  x := Slots.zero
  len := Lens.zero
  done := false
  err := false
  ovr := false
  errcode := 0x00#8
  ncalls := 0#8
  pend := none

/-- The machine right after reset: MGE as R36 says; no host program, no listed draw and no listed move, and the parameter
`CIPHER_MAY_FAIL` false (DESIGN CHOICE, log entries 1 to 4; unsafe where a claim uses it). -/
def State.reset : State where
  mge := Mge.reset
  oracle := { mayFail := false, draws := [], drawn := 0 }
  host := { prog := [], pos := 0, vars := [], trace := [] }
  agenda := []

end Sys2Proof.Machine
end

