-- ==== Sys2Proof/Machine/Operands.lean ====
section
/-! DEFINITION. The operands of commands: fixed slots, each checked for its declared length (10_state.md R22;
30_encoding.md R85). -/

namespace Sys2Proof.Machine

/-- Slot `s` is well-formed: `len[s] = cap(s)` (R22). -/
def Mge.slotWF (m : Mge) (s : Slot) : Bool :=
  m.len.get s == BitVec.ofNat 8 s.cap

/-- Every slot of a list is well-formed. -/
def Mge.slotsWF (m : Mge) (ss : List Slot) : Bool :=
  ss.all m.slotWF

/-- The slots whose length a command checks, the operands of R85 (GEN.U checks OP, whose bytes it does not read: R190). -/
def operandsOf : Instr → List Slot
  | .enc => [.ki, .blk]
  | .dopc => [.ki, .op]
  | .eval => [.ki, .opc, .rand]
  | .fres => [.res]
  | .fck => [.ck, .ik]
  | .gen => [.ki, .op, .rand]
  | .genU => [.ki, .op, .rand, .opc]

/-- The slots a command writes on success (R20's last column, R85). -/
def resultsOf : Instr → List Slot
  | .enc => [.out]
  | .dopc => [.opc]
  | .eval => [.res, .ck, .ik]
  | .fres => [.sres]
  | .fck => [.kc]
  | .gen => [.opc, .sres, .kc]
  | .genU => [.sres, .kc]

/-- The cipher invocations of a successful command (70_reset_and_hazards.md R240). -/
def invocationsOf : Instr → Nat
  | .enc => 1
  | .dopc => 1
  | .eval => 4
  | .fres => 0
  | .fck => 0
  | .gen => 5
  | .genU => 4

end Sys2Proof.Machine
end

