-- ==== Sys2Proof/Machine/Flags.lean ====
section
/-! DEFINITION. STATUS and the error codes (10_state.md R25, R31; 60_exceptions.md R200). -/

namespace Sys2Proof.Machine

/-- STATUS.BUSY: a command is pending (R31). -/
def Mge.busy (m : Mge) : Bool := m.pend.isSome

/-- A flag as a bit field of width 1. -/
def bitOf (b : Bool) : BitVec 1 := BitVec.ofBool b

/-- The read value of STATUS, `zext_8(ovr:err:done:busy)` (R25, R50). -/
def Mge.status (m : Mge) : Byte :=
  (bitOf m.ovr ++ bitOf m.err ++ bitOf m.done ++ bitOf m.busy).setWidth 8

/-- Whether a byte written to STATUS clears OVR: its bit 3 (R25). -/
def clearsOvr (v : Byte) : Bool := v.getLsbD 3

/-- The code of an error in ERRCODE (R200). -/
def Err.code : Err → Byte
  | .invalidLength => 0x01#8
  | .invalidKeyLength => 0x02#8
  | .invalidBlockLength => 0x03#8
  | .cipherFailure => 0x04#8
  | .illegalCommand => 0x05#8

end Sys2Proof.Machine
end

