-- ==== Sys2Proof/Machine/Ops.lean ====
section
/-! DEFINITION. The named operations on the state: reset, acceptance, staging and completion of a command
(60_exceptions.md R200 to R207; 70_reset_and_hazards.md R230), and the agenda of moves (R208). -/

namespace Sys2Proof.Machine

/-! ### A command's run, before it is committed -/

/-- What running a command gives: a result or an error, and the number of cipher invocations made (R101, R207). -/
inductive Run (α : Type) where
  | ok (a : α) (calls : Nat)
  | err (e : Err) (calls : Nat)
deriving DecidableEq, Repr

/-- Go on with a result; an error ends the command and is passed on unchanged (R104, R202). -/
def Run.bind {α β : Type} (r : Run α) (f : α → Nat → Run β) : Run β :=
  match r with
  | .ok a calls => f a calls
  | .err e calls => .err e calls

/-- The invocations a run made (R101). -/
def Run.calls {α : Type} : Run α → Nat
  | .ok _ calls => calls
  | .err _ calls => calls

/-! ### Writes -/

/-- A host write of one data byte (R23, R51): no `len` changes. -/
def Mge.setByte (m : Mge) (s : Slot) (i : Fin s.cap) (v : Byte) : Mge :=
  { m with x := m.x.set s ((m.x.get s).set i.val v i.isLt) }

/-- A host write of a declared length (R21, R23): no data byte changes. -/
def Mge.setLen (m : Mge) (s : Slot) (n : Byte) : Mge :=
  { m with len := m.len.set s n }

/-- A write that comes while BUSY is dropped and sets OVR (R51, R234). -/
def Mge.overrun (m : Mge) : Mge := { m with ovr := true }

/-- OVR cleared by the host (R25). -/
def Mge.clearOvr (m : Mge) : Mge := { m with ovr := false }

/-- One staged write made visible: the slot's data, and its `len` set to the capacity (R20, R21). -/
def Mge.writeSlot (m : Mge) (w : SlotWrite) : Mge :=
  { m with x := m.x.set w.slot w.data, len := m.len.set w.slot (BitVec.ofNat 8 w.slot.cap) }

/-- `commit`: every staged write made visible (R202). -/
def Mge.commit (m : Mge) (ws : List SlotWrite) : Mge :=
  ws.foldl Mge.writeSlot m

/-! ### Starting and ending a command -/

/-- `accept(v)` of R206. -/
def Mge.accept (m : Mge) (v : Byte) : Mge :=
  { m with pend := some v, done := false, err := false, errcode := 0x00#8, ncalls := 0#8 }

/-- The end of a command that succeeded (R207). -/
def Mge.endOk (m : Mge) (calls : Nat) : Mge :=
  { m with done := true, err := false, errcode := 0x00#8, ncalls := BitVec.ofNat 8 calls, pend := none }

/-- The end of a command that failed: what MGE has for taking an exception (R207, R209). Its staged writes are discarded
(R202), so only STATUS, ERRCODE, NCALLS and PEND change. -/
def Mge.endErr (m : Mge) (e : Err) (calls : Nat) : Mge :=
  { m with done := true, err := true, errcode := e.code, ncalls := BitVec.ofNat 8 calls, pend := none }

/-- The completion step's effect on MGE (R207). -/
def Mge.complete (m : Mge) (r : Run (List SlotWrite)) : Mge :=
  match r with
  | .ok ws calls => (m.commit ws).endOk calls
  | .err e calls => m.endErr e calls

/-- The draws an engine step has used are gone from the oracle's list (R208). -/
def Oracle.advance (o : Oracle) (calls : Nat) : Oracle :=
  { o with draws := o.draws.drop calls, drawn := o.drawn + calls }

/-- The completion step (R207), with the draws it consumed (R208). -/
def State.finish (s : State) (r : Run (List SlotWrite)) : State :=
  { s with mge := s.mge.complete r, oracle := s.oracle.advance r.calls }

/-! ### Reset -/

/-- The reset event (R230): every piece of MGE's state at its reset value; a pending command is abandoned. The host and
the inputs are outside MGE and stay. -/
def State.resetEvent (s : State) : State := { s with mge := Mge.reset }

/-! ### Whose move it is -/

/-- The agent that moves next: the agenda's head; with no move listed, the engine while a command is pending (weak
fairness, R208), else the host (DESIGN CHOICE, log entry 4, unsafe where a claim fixes an empty agenda). -/
def State.turn (s : State) : Turn :=
  match s.agenda with
  | t :: _ => t
  | [] => if s.mge.busy then .engine else .host

/-- The agenda after that move. -/
def State.pop (s : State) : State := { s with agenda := s.agenda.tail }

end Sys2Proof.Machine
end

