-- ==== Sys2Proof/Machine/Cipher.lean ====
section
/-! DEFINITION. The cipher adapter and the ENC command (40_cipher_adapter.md R100 to R104). -/

namespace Sys2Proof.Machine

/-- The draw of the `k`-th invocation to come, counted from 0 (R101, R208): ok when no invocation may fail; else the
listed draw; a draw the list does not give is free (log entry 2). -/
def Oracle.drawAt (o : Oracle) (k : Nat) : Draw :=
  if o.mayFail then o.draws.getD k (Config.freeDraw (o.drawn + k)) else .ok

/-- The first `n` invocations to come all draw ok. -/
def Oracle.allOk (o : Oracle) (n : Nat) : Prop := ∀ k, k < n → o.drawAt k = .ok

/-- `cipher(k, b)` of R101, made when the command has already made `calls` invocations. A failed one counts. -/
def cipher (o : Oracle) (k b : Block) (calls : Nat) : Run Block :=
  match o.drawAt calls with
  | .ok => .ok (E k b) (calls + 1)
  | .fail => .err .cipherFailure (calls + 1)

/-- ENC (R103): the key's length, then the block's, then the one invocation. -/
def runEnc (m : Mge) (o : Oracle) : Run (List SlotWrite) :=
  if m.slotWF .ki = false then .err .invalidKeyLength 0
  else if m.slotWF .blk = false then .err .invalidBlockLength 0
  else (cipher o m.x.ki m.x.blk 0).bind fun out calls => .ok [⟨.out, out⟩] calls

/-- ENC, 0x01. -/
def execEnc (s : State) : Host.Outcome State Fault Refusal :=
  .next (s.finish (runEnc s.mge s.oracle))

end Sys2Proof.Machine
end

