-- ==== Sys2Proof/Machine/Milenage.lean ====
section
/-! DEFINITION. The Milenage core and the EVAL command (43_milenage.md R160 to R165). -/

namespace Sys2Proof.Machine

/-- The three outputs of `M` (R160). -/
structure MOut where
  res : Bytes 8
  ck : Block
  ik : Block
deriving DecidableEq, Repr

/-- `M(k, o, r)` of R160: four invocations in this order, on the rotations and constants of R164. Vector
M-Z of 95_test_vectors.md disagrees with this rule (log entry 10). -/
def milenage (orc : Oracle) (k o r : Block) (calls : Nat) : Run MOut :=
  (cipher orc k (xorB r o) calls).bind fun t2 calls =>
    let u := xorB t2 o
    (cipher orc k (flip u 0x01#8) calls).bind fun c1 calls =>
      let t3 := xorB c1 o
      (cipher orc k (flip (rotb u 4) 0x02#8) calls).bind fun c2 calls =>
        (cipher orc k (flip (rotb u 8) 0x04#8) calls).bind fun c3 calls =>
          .ok { res := lastHalf t3, ck := xorB c2 o, ik := xorB c3 o } calls

/-- EVAL (R161): RAND and OPC first, then KI (R163), then `M`. -/
def runEval (m : Mge) (o : Oracle) : Run (List SlotWrite) :=
  if m.slotsWF [.rand, .opc] = false then .err .invalidLength 0
  else if m.slotWF .ki = false then .err .invalidKeyLength 0
  else (milenage o m.x.ki m.x.opc m.x.rand 0).bind fun v calls =>
    .ok [⟨.res, v.res⟩, ⟨.ck, v.ck⟩, ⟨.ik, v.ik⟩] calls

/-- EVAL, 0x03. -/
def execEval (s : State) : Host.Outcome State Fault Refusal :=
  .next (s.finish (runEval s.mge s.oracle))

end Sys2Proof.Machine
end

