-- ==== Sys2Proof/Machine/Opc.lean ====
section
/-! DEFINITION. The OPC deriver and the DOPC command (42_opc.md R150). -/

namespace Sys2Proof.Machine

/-- `cipher(ki, op) ⊕ op`, the derivation DOPC and GEN share (R150, R190). -/
def deriveOpc (o : Oracle) (ki op : Block) (calls : Nat) : Run Block :=
  (cipher o ki op calls).bind fun c calls => .ok (xorB c op) calls

/-- DOPC (R150): one length check for both inputs, then the one invocation. -/
def runDopc (m : Mge) (o : Oracle) : Run (List SlotWrite) :=
  if m.slotsWF [.ki, .op] = false then .err .invalidLength 0
  else (deriveOpc o m.x.ki m.x.op 0).bind fun c calls => .ok [⟨.opc, c⟩] calls

/-- DOPC, 0x02. -/
def execDopc (s : State) : Host.Outcome State Fault Refusal :=
  .next (s.finish (runDopc s.mge s.oracle))

end Sys2Proof.Machine
end

