-- ==== Sys2Proof/Machine/Reducer.lean ====
section
/-! DEFINITION. The triplet reducer and the FRES and FCK commands (44_reduce.md R180 to R183). -/

namespace Sys2Proof.Machine

/-- The fold of the response (R180): `RES[i] xor RES[i+4]`. -/
def foldRes (res : Bytes 8) : Bytes 4 :=
  Vector.ofFn fun i : Fin 4 => res[i.val]'(by omega) ^^^ res[i.val + 4]'(by omega)

/-- The fold of the cipher key (R182): `CK[i] xor CK[i+8] xor IK[i] xor IK[i+8]`. -/
def foldCk (ck ik : Block) : Bytes 8 :=
  Vector.ofFn fun i : Fin 8 =>
    ck[i.val]'(by omega) ^^^ ck[i.val + 8]'(by omega) ^^^ ik[i.val]'(by omega) ^^^ ik[i.val + 8]'(by omega)

/-- FRES (R180). -/
def runFres (m : Mge) : Run (List SlotWrite) :=
  if m.slotWF .res = false then .err .invalidLength 0
  else .ok [⟨.sres, foldRes m.x.res⟩] 0

/-- FCK (R182). -/
def runFck (m : Mge) : Run (List SlotWrite) :=
  if m.slotsWF [.ck, .ik] = false then .err .invalidLength 0
  else .ok [⟨.kc, foldCk m.x.ck m.x.ik⟩] 0

/-- FRES, 0x04. -/
def execFres (s : State) : Host.Outcome State Fault Refusal :=
  .next (s.finish (runFres s.mge))

/-- FCK, 0x05. -/
def execFck (s : State) : Host.Outcome State Fault Refusal :=
  .next (s.finish (runFck s.mge))

end Sys2Proof.Machine
end

