-- ==== Sys2Proof/Machine/Triplet.lean ====
section
/-! DEFINITION. The triplet service: GEN and GEN.U (45_triplet.md R190 to R193). -/

namespace Sys2Proof.Machine

/-- The folded results of `M`, staged (R190). -/
def stagedTriplet (v : MOut) : List SlotWrite :=
  [⟨.sres, foldRes v.res⟩, ⟨.kc, foldCk v.ck v.ik⟩]

/-- GEN with U = 0 (R190): OPC derived and written, then `M` and the folds. -/
def runGen (m : Mge) (o : Oracle) : Run (List SlotWrite) :=
  if m.slotsWF [.ki, .op, .rand] = false then .err .invalidLength 0
  else (deriveOpc o m.x.ki m.x.op 0).bind fun c calls =>
    (milenage o m.x.ki c m.x.rand calls).bind fun v calls =>
      .ok (⟨.opc, c⟩ :: stagedTriplet v) calls

/-- GEN with U = 1 (R190): OPC as its slot holds it, trusted (R192). -/
def runGenU (m : Mge) (o : Oracle) : Run (List SlotWrite) :=
  if m.slotsWF [.ki, .op, .rand] = false then .err .invalidLength 0
  else if m.slotWF .opc = false then .err .invalidLength 0
  else (milenage o m.x.ki m.x.opc m.x.rand 0).bind fun v calls => .ok (stagedTriplet v) calls

/-- GEN, 0x06. -/
def execGen (s : State) : Host.Outcome State Fault Refusal :=
  .next (s.finish (runGen s.mge s.oracle))

/-- GEN.U, 0x16. -/
def execGenU (s : State) : Host.Outcome State Fault Refusal :=
  .next (s.finish (runGenU s.mge s.oracle))

end Sys2Proof.Machine
end

