-- ==== Sys2Proof/Machine/Dispatch.lean ====
section
/-! DEFINITION. One arm per command of spec/opcode_table.json (60_exceptions.md R207, `run`). -/

namespace Sys2Proof.Machine

def exec (i : Instr) (s : State) : Host.Outcome State Fault Refusal :=
  match i with
  | .enc => Sys2Proof.Machine.execEnc s
  | .dopc => Sys2Proof.Machine.execDopc s
  | .eval => Sys2Proof.Machine.execEval s
  | .fres => Sys2Proof.Machine.execFres s
  | .fck => Sys2Proof.Machine.execFck s
  | .gen => Sys2Proof.Machine.execGen s
  | .genU => Sys2Proof.Machine.execGenU s

end Sys2Proof.Machine
end

