-- ==== Sys2Proof/Machine/Engine.lean ====
section
/-! DEFINITION. The engine's completion step (60_exceptions.md R207) and the placing of a command in PEND (R206). -/

namespace Sys2Proof.Machine

/-- The completion of an illegal byte (30_encoding.md R83): ILLEGAL_COMMAND, no invocation, nothing else. -/
def State.completeIllegal (s : State) : State :=
  s.finish (.err .illegalCommand 0)

/-- The engine's move (R207): the pending command run as one atomic step. With none pending it is not enabled and nothing
changes (R208; log entries 4 and 14). -/
def State.engineStep (s : State) : Host.Outcome State Fault Refusal :=
  match s.mge.pend with
  | none => .next s
  | some c =>
    match decode c with
    | .legal i => exec i s
    | .illegal _ => .next s.completeIllegal

/-- Command byte `c` accepted (R206), and the engine to move next (log entry 5). -/
def State.acceptNext (s : State) (c : Byte) : State :=
  { s with mge := s.mge.accept c, agenda := .engine :: s.agenda }

end Sys2Proof.Machine
end

