-- ==== Sys2Proof/Machine/Window.lean ====
section
/-! DEFINITION. The register window: its map, host reads and host writes (20_memory.md R50 to R56). It is a view
of the registers (log entry 8). -/

namespace Sys2Proof.Machine

/-- What stands at a window address (R52). -/
inductive Loc where
  | data (s : Slot) (i : Fin s.cap)
  | len (s : Slot)
  | cmd
  | status
  | errcode
  | ncalls
  | reserved
deriving DecidableEq, Repr

/-- The data byte at address `a` among the slots given: byte `i` of slot `s` is at `base(s) + i` (R20, R55). -/
def findData : List Slot → Nat → Option Loc
  | [], _ => none
  | s :: rest, a =>
    if h : s.base ≤ a ∧ a - s.base < s.cap then some (.data s ⟨a - s.base, h.2⟩)
    else findData rest a

/-- The slot with a given index (R20). -/
def slotAt (i : Nat) : Option Slot := Slot.all[i]?

/-- The `len` register at address `a`: 0xA0 + index (R20). -/
def findLen (a : Nat) : Option Loc :=
  if 0xA0 ≤ a then (slotAt (a - 0xA0)).map Loc.len else none

/-- The map of R52; every address it does not name is reserved (R28, R53). -/
def locate (a : Byte) : Loc :=
  match findData Slot.all a.toNat with
  | some l => l
  | none =>
    match findLen a.toNat with
    | some l => l
    | none =>
      if a = 0xF0#8 then .cmd
      else if a = 0xF1#8 then .status
      else if a = 0xF2#8 then .errcode
      else if a = 0xF3#8 then .ncalls
      else .reserved

/-- The value of a host read of one byte (R50). KI's data reads as 0x00 (R23), and so do CMD (R24) and the reserved
addresses (R53). A read changes no state (R58): this is a value, not a step. -/
def Mge.readLoc (m : Mge) : Loc → Byte
  | .data s i => if s = .ki then 0x00#8 else (m.x.get s).get i
  | .len s => m.len.get s
  | .cmd => 0x00#8
  | .status => m.status
  | .errcode => m.errcode
  | .ncalls => m.ncalls
  | .reserved => 0x00#8

/-- `MemRead(a, 1)` (R50). -/
def Mge.memRead (m : Mge) (a : Byte) : Byte := m.readLoc (locate a)

/-- The effect of a host write at a place of the window (R51). -/
def Mge.writeLoc (m : Mge) (l : Loc) (v : Byte) : Mge :=
  match l with
  | .data s i => if m.busy then m.overrun else m.setByte s i v
  | .len s => if m.busy then m.overrun else m.setLen s v
  | .cmd => if m.busy then m.overrun else m.accept v
  | .status => if clearsOvr v then m.clearOvr else m
  | .errcode => m
  | .ncalls => m
  | .reserved => m

/-- `MemWrite(a, 1, v)` (R51). -/
def Mge.memWrite (m : Mge) (a v : Byte) : Mge := m.writeLoc (locate a) v

/-- A slot's data address as a window address (R20, R55). -/
def dataAddr (s : Slot) (i : Nat) : Byte := BitVec.ofNat 8 (s.base + i)

/-- A slot's `len` address (R20). -/
def lenAddr (s : Slot) : Byte := BitVec.ofNat 8 (0xA0 + s.index)

end Sys2Proof.Machine
end

