-- ==== Sys2Proof/Machine/HostAgent.lean ====
section
/-! DEFINITION. The host agent: one statement of its program a move (30_encoding.md R87; 60_exceptions.md R208). -/

namespace Sys2Proof.Machine

/-- The value of a host variable: the last byte read into it; free before any (log entry 6). -/
def HostAgent.get (h : HostAgent) (v : HVar) : Byte :=
  match h.vars.find? fun p => p.1 == v with
  | some p => p.2
  | none => Config.unsetVar v

/-- A host variable set; each variable stands once. -/
def HostAgent.set (h : HostAgent) (v : HVar) (b : Byte) : HostAgent :=
  { h with vars := (v, b) :: h.vars.filter fun p => p.1 != v }

/-- The line the host is at; none when its program has ended. -/
def HostAgent.line (h : HostAgent) : Option HostLine := h.prog[h.pos]?

/-- On to the next line. -/
def HostAgent.advance (h : HostAgent) : HostAgent := { h with pos := h.pos + 1 }

/-- The line a label stands on. -/
def HostAgent.target (h : HostAgent) (l : String) : Option Nat :=
  h.prog.findIdx? fun line => line.label == some l

/-- A bus transaction made (R87). -/
def HostAgent.record (h : HostAgent) (b : BusOp) : HostAgent := { h with trace := b :: h.trace }

/-- `MemWrite(a, 1, v)` by the host: one access a step (R51, R208). -/
def State.hostWrite (s : State) (a v : Byte) : State :=
  { s with mge := s.mge.memWrite a v, host := (s.host.record (.w a v)).advance }

/-- `MemRead(a, 1)` by the host, its byte given to `k` (R50, R208). A read changes nothing in MGE (R58). -/
def State.hostRead (s : State) (a : Byte) (k : HostAgent → Byte → HostAgent) : State :=
  { s with host := k (s.host.record (.r a (s.mge.memRead a))) (s.mge.memRead a) }

/-- A jump to a label (R87); a label no line carries stops the host (DESIGN CHOICE, log entry 6, safe). -/
def State.hostJump (s : State) (l : String) : Host.Outcome State Fault Refusal :=
  match s.host.target l with
  | some p => .next { s with host := { s.host with pos := p } }
  | none => .fault (.undefinedLabel l)

/-- One statement (R87). `jnz` and `jmp` make no bus transaction: MGE does not see them. -/
def State.hostStmt (s : State) : HostStmt → Host.Outcome State Fault Refusal
  | .wr a v => .next (s.hostWrite a v)
  | .rd a h => .next (s.hostRead a fun host b => (host.set h b).advance)
  | .poll a m v => .next (s.hostRead a fun host b => if b &&& m = v then host.advance else host)
  | .jnz h m l =>
    if s.host.get h &&& m = 0#8 then .next { s with host := s.host.advance } else s.hostJump l
  | .jmp l => s.hostJump l
  | .readWide a n => if n = 1 then .next (s.hostRead a fun host _ => host.advance) else .refused (.accessWidth n)
  | .writeWide a n v =>
    if n = 1 then .next (s.hostWrite a (BitVec.ofNat 8 v)) else .refused (.accessWidth n)

/-- The host's move. A host whose program has ended changes nothing (R208). -/
def State.hostStep (s : State) : Host.Outcome State Fault Refusal :=
  match s.host.line with
  | none => .next s
  | some line => s.hostStmt line.stmt

end Sys2Proof.Machine
end

