-- ==== Sys2Proof/Machine/Step.lean ====
section
/-! DEFINITION. One step: one agent's move (60_exceptions.md R208; 20_memory.md R59). -/

namespace Sys2Proof.Machine

/-- The move of the agent whose turn it is. -/
def step (s : State) : Host.Outcome State Fault Refusal :=
  match s.turn with
  | .host => s.pop.hostStep
  | .engine => s.pop.engineStep
  | .reset => .next s.pop.resetEvent

/-- `s` with the command of an opcode-table word accepted, so that the very next step runs it (log entry 5): MGE fetches no
instruction, and a command runs when its byte has been written to CMD (10_state.md R29, 60_exceptions.md R206). -/
def State.withFetchWord (s : State) (nbits w : Nat) : State :=
  s.acceptNext (tableByte nbits w)

end Sys2Proof.Machine
end

