-- ==== Sys2Proof/Machine/Assembler.lean ====
section
/-! DEFINITION. The host assembler: pseudo-instructions (30_encoding.md R88) and the text of a host program
(R86, R87; 00_scope.md R11). What the rules leave of the syntax is DESIGN CHOICE (log entry 12). -/

namespace Sys2Proof.Machine

/-! ### Pseudo-instructions, R88 -/

/-- A statement as it is written: a basic one of R87 or a pseudo-instruction of R88. -/
inductive SrcStmt where
  | base (st : HostStmt)
  | cmd (i : Instr)
  | wait
  | load (s : Slot) (hex : List Byte)
  | setlen (s : Slot) (n : Byte)
  | read (s : Slot)
  | clrovr
  | run (i : Instr)
deriving DecidableEq, Repr

/-- A line as it is written (R87). -/
structure SrcLine where
  label : Option String
  stmt : SrcStmt
deriving DecidableEq, Repr

/-- `cmd M` (R88). -/
def expandCmd (i : Instr) : List HostStmt := [.wr 0xF0#8 (encode i)]

/-- `wait` (R88): until BUSY = 0. -/
def expandWait : List HostStmt := [.poll 0xF1#8 0x01#8 0x00#8]

/-- `load S, HEX` (R88): the bytes that have an address, in increasing order, then the full declared length; more than 255
bytes are refused, since their length has no byte (93_implementation_defined.md row 17). -/
def expandLoad (s : Slot) (hex : List Byte) : Option (List HostStmt) :=
  if hex.length ≤ 255 then
    some (((List.range (min hex.length s.cap)).map fun i => .wr (dataAddr s i) (hex.getD i 0x00#8)) ++
      [.wr (lenAddr s) (BitVec.ofNat 8 hex.length)])
  else none

/-- `read S` (R88): every byte, in increasing order, into `S[i]`. -/
def expandRead (s : Slot) : List HostStmt :=
  (List.range s.cap).map fun i => .rd (dataAddr s i) (.slotByte s i)

/-- The basic statements a statement stands for (R88). -/
def expand : SrcStmt → Option (List HostStmt)
  | .base st => some [st]
  | .cmd i => some (expandCmd i)
  | .wait => some expandWait
  | .load s hex => expandLoad s hex
  | .setlen s n => some [.wr (lenAddr s) n]
  | .read s => some (expandRead s)
  | .clrovr => some [.wr 0xF1#8 0x08#8]
  | .run i => some (expandCmd i ++ expandWait)

/-- A line expanded: its label stands on its first basic statement. -/
def expandLine (l : SrcLine) : Option (List HostLine) :=
  (expand l.stmt).map fun sts =>
    match sts with
    | [] => []
    | st :: rest => ⟨l.label, st⟩ :: rest.map fun r => ⟨none, r⟩

/-- A program expanded, line by line. -/
def assemble : List SrcLine → Option (List HostLine)
  | [] => some []
  | l :: rest => (expandLine l).bind fun ls => (assemble rest).map fun more => ls ++ more

/-! ### Text, R11, R86 and R87 -/

/-- A slot's name (R20). -/
def Slot.text : Slot → String
  | .ki => "KI" | .op => "OP" | .opc => "OPC" | .rand => "RAND" | .blk => "BLK" | .out => "OUT"
  | .res => "RES" | .sres => "SRES" | .ck => "CK" | .ik => "IK" | .kc => "KC"

/-- The slot of a name. -/
def slotOfText (w : String) : Option Slot :=
  Slot.all.find? fun s => s.text == w

/-- The command of a mnemonic (R86). -/
def instrOfText (w : String) : Option Instr :=
  [Instr.enc, .dopc, .eval, .fres, .fck, .gen, .genU].find? fun i => mnemonicOf i == w

/-- The value of a lowercase hexadecimal digit (R11). -/
def hexDigit (c : Char) : Option Nat :=
  if '0' ≤ c ∧ c ≤ '9' then some (c.toNat - '0'.toNat)
  else if 'a' ≤ c ∧ c ≤ 'f' then some (c.toNat - 'a'.toNat + 10)
  else none

/-- A hexadecimal byte string: digits `2i` and `2i+1` give byte `i`, the high nibble first, no prefix (R11). -/
def hexBytes : List Char → Option (List Byte)
  | [] => some []
  | [_] => none
  | h :: l :: rest =>
    (hexDigit h).bind fun a => (hexDigit l).bind fun b =>
      (hexBytes rest).map fun bs => BitVec.ofNat 8 (16 * a + b) :: bs

/-- The digits of a number (R87), in either case. -/
def hexNat (acc : Nat) : List Char → Option Nat
  | [] => some acc
  | c :: rest => (hexDigit c.toLower).bind fun d => hexNat (16 * acc + d) rest

/-- A number of one byte, hexadecimal with the prefix 0x (R87). -/
def byteOfText (w : String) : Option Byte :=
  match w.toList with
  | '0' :: 'x' :: d :: ds => (hexNat 0 (d :: ds)).bind fun n => if n < 256 then some (BitVec.ofNat 8 n) else none
  | _ => none

/-- A line's words: no comment (it starts with a semicolon), separated by blanks and commas (R87). -/
def wordsOf (line : String) : List String :=
  (((line.toList.takeWhile fun c => c != ';').splitOnP fun c => c == ' ' || c == ',' || c == '\t').filter
    fun w => !w.isEmpty).map String.ofList

/-- How a program writes a host variable: by its name, and a byte read by `read S` as `S[i]`, `i` in decimal (R87, R88; log
entry 12). -/
def HVar.text : HVar → String
  | .named w => w
  | .slotByte s i => s.text ++ "[" ++ toString i ++ "]"

/-- The host variable a word names. -/
def hvarOfText (w : String) : HVar :=
  ((Slot.all.flatMap fun s => (List.range s.cap).map (HVar.slotByte s)).find? fun h => h.text == w).getD (.named w)

/-- A statement from its words (R86 to R88). -/
def stmtOfWords : List String → Option SrcStmt
  | ["wr", a, v] => (byteOfText a).bind fun a => (byteOfText v).map fun v => .base (.wr a v)
  | ["rd", a, "->", h] => (byteOfText a).map fun a => .base (.rd a (hvarOfText h))
  | ["poll", a, m, v] =>
    (byteOfText a).bind fun a => (byteOfText m).bind fun m => (byteOfText v).map fun v => .base (.poll a m v)
  | ["jnz", h, m, l] => (byteOfText m).map fun m => .base (.jnz (hvarOfText h) m l)
  | ["jmp", l] => some (.base (.jmp l))
  | ["cmd", m] => (instrOfText m).map .cmd
  | ["wait"] => some .wait
  | ["load", s, hex] => (slotOfText s).bind fun s => (hexBytes hex.toList).map fun bs => .load s bs
  | ["load", s] => (slotOfText s).map fun s => .load s []
  | ["setlen", s, n] => (slotOfText s).bind fun s => (byteOfText n).map fun n => .setlen s n
  | ["read", s] => (slotOfText s).map .read
  | ["clrovr"] => some .clrovr
  | ["run", m] => (instrOfText m).map .run
  | _ => none

/-- The label a word declares: the word without its colon (R87). -/
def labelOfWord (w : String) : Option String :=
  match w.toList.reverse with
  | ':' :: name => if name.isEmpty then none else some (String.ofList name.reverse)
  | _ => none

/-- A line of text (R87). -/
def lineOfText (line : String) : Option SrcLine :=
  match wordsOf line with
  | [] => none
  | w :: ws =>
    match labelOfWord w with
    | some l => (stmtOfWords ws).map fun st => ⟨some l, st⟩
    | none => (stmtOfWords (w :: ws)).map fun st => ⟨none, st⟩

/-- A program of text lines, blank and comment lines left out (R87). -/
def linesOfText : List String → Option (List SrcLine)
  | [] => some []
  | t :: rest =>
    if (wordsOf t).isEmpty then linesOfText rest
    else (lineOfText t).bind fun l => (linesOfText rest).map fun ls => l :: ls

/-- A host program from its text. -/
def programOfText (lines : List String) : Option (List HostLine) :=
  (linesOfText lines).bind assemble

/-- A host program placed in the host agent, which starts at its first line (log entry 5). -/
def State.withProgram (s : State) (p : List HostLine) : State :=
  { s with host := { prog := p, pos := 0, vars := [], trace := [] } }

end Sys2Proof.Machine
end

