-- ==== Sys2Proof/Safety.lean ====
section
/-! DEFINITION. The terms claims are stated in: the invariants of 10_state.md R34, the order of checks of
60_exceptions.md R203, the pure functions of the commands, and the host duties of 70_reset_and_hazards.md R236. -/

namespace Sys2Proof.Machine

/-! ### Invariants, R34 -/

/-- R34's five invariants, then three that follow from the rules for errors: R200's "Codes 0x06 to 0xFF are never
produced"; an error other than CIPHER_FAILURE came before any invocation (R83, R102, R203); and a failed invocation counts
(R101). -/
structure Mge.Inv (m : Mge) : Prop where
  idleOrNotDone : m.pend = none ∨ m.done = false
  errDone : m.err = true → m.done = true
  codeErr : m.errcode = 0x00#8 ↔ m.err = false
  fewCalls : m.ncalls.toNat ≤ 5
  busyNoCalls : m.pend ≠ none → m.ncalls = 0#8
  knownCode : m.errcode.toNat ≤ 5
  checkNoCalls : m.errcode ≠ 0x00#8 → m.errcode ≠ 0x04#8 → m.ncalls = 0#8
  failureCounts : m.errcode = 0x04#8 → m.ncalls ≠ 0#8

/-! ### How a command ends, R207 -/

/-- `m'` is `m` after a command that succeeded with `n` cipher invocations: the status part of R207. -/
structure Mge.EndedOk (m m' : Mge) (n : Nat) : Prop where
  done : m'.done = true
  err : m'.err = false
  errcode : m'.errcode = 0x00#8
  ncalls : m'.ncalls = BitVec.ofNat 8 n
  pend : m'.pend = none
  ovr : m'.ovr = m.ovr

/-- `m'` is `m` after a command that failed with error `e` and `n` cipher invocations: R207's status part, and no slot and
no `len` changed (R202). -/
structure Mge.EndedErr (m m' : Mge) (e : Err) (n : Nat) : Prop where
  done : m'.done = true
  err : m'.err = true
  errcode : m'.errcode = e.code
  ncalls : m'.ncalls = BitVec.ofNat 8 n
  pend : m'.pend = none
  ovr : m'.ovr = m.ovr
  x : m'.x = m.x
  len : m'.len = m.len

/-- Every slot outside `ss` keeps its data and its `len`. -/
def Mge.KeptBut (ss : List Slot) (m m' : Mge) : Prop :=
  ∀ s, s ∉ ss → m'.x.get s = m.x.get s ∧ m'.len.get s = m.len.get s

/-- What a command leaves alone outside MGE: the host, the coming moves and the parameter `CIPHER_MAY_FAIL`, the model's own
fields (log entries 3, 4 and 1). -/
structure State.OutsideKept (s t : State) : Prop where
  host : t.host = s.host
  agenda : t.agenda = s.agenda
  mayFail : t.oracle.mayFail = s.oracle.mayFail

/-! ### The order of length checks, R203 -/

/-- The error of a command's length checks on declared lengths `l`, the first that applies in R203's order; none when every
check passes. -/
def lengthError (i : Instr) (l : Lens) : Option Err :=
  match i with
  | .enc =>
    if l.ki ≠ 16#8 then some .invalidKeyLength else if l.blk ≠ 16#8 then some .invalidBlockLength else none
  | .dopc => if l.ki ≠ 16#8 ∨ l.op ≠ 16#8 then some .invalidLength else none
  | .eval =>
    if l.rand ≠ 16#8 ∨ l.opc ≠ 16#8 then some .invalidLength
    else if l.ki ≠ 16#8 then some .invalidKeyLength else none
  | .fres => if l.res ≠ 8#8 then some .invalidLength else none
  | .fck => if l.ck ≠ 16#8 ∨ l.ik ≠ 16#8 then some .invalidLength else none
  | .gen => if l.ki ≠ 16#8 ∨ l.op ≠ 16#8 ∨ l.rand ≠ 16#8 then some .invalidLength else none
  | .genU =>
    if l.ki ≠ 16#8 ∨ l.op ≠ 16#8 ∨ l.rand ≠ 16#8 then some .invalidLength
    else if l.opc ≠ 16#8 then some .invalidLength else none

/-- The errors a command can report (R200, "raised by"). -/
def errorsOf : Instr → List Err
  | .enc => [.invalidKeyLength, .invalidBlockLength, .cipherFailure]
  | .dopc => [.invalidLength, .cipherFailure]
  | .eval => [.invalidLength, .invalidKeyLength, .cipherFailure]
  | .fres => [.invalidLength]
  | .fck => [.invalidLength]
  | .gen => [.invalidLength, .cipherFailure]
  | .genU => [.invalidLength, .cipherFailure]

/-- The slots whose data bytes a command's results come from: R85's reads, less OP for GEN.U (R190, "it does not read OP's
bytes"). -/
def dataOf : Instr → List Slot
  | .enc => [.ki, .blk]
  | .dopc => [.ki, .op]
  | .eval => [.ki, .opc, .rand]
  | .fres => [.res]
  | .fck => [.ck, .ik]
  | .gen => [.ki, .op, .rand]
  | .genU => [.ki, .rand, .opc]

/-! ### The commands as functions of their operands -/

/-- `E(ki, op) ⊕ op` (R151). -/
def opcOf (ki op : Block) : Block := xorB (E ki op) op

/-- The block `u` of R160: `E(k, r ⊕ o) ⊕ o`. -/
def midOf (k o r : Block) : Block := xorB (E k (xorB r o)) o

/-- `M(k, o, r)` as a pure function (R160, R164, R165): the results when every invocation succeeds. -/
def milenageOf (k o r : Block) : MOut where
  res := lastHalf (xorB (E k (flip (midOf k o r) 0x01#8)) o)
  ck := xorB (E k (flip (rotb (midOf k o r) 4) 0x02#8)) o
  ik := xorB (E k (flip (rotb (midOf k o r) 8) 0x04#8)) o

/-! ### Host duties, R236 and R241 -/

/-- The duty of a host that issues EVAL or GEN.U: the OPC slot holds the OPC of the loaded KI and OP (R192, R236). A premise
of claims, checked by no step. -/
def Mge.opcDuty (m : Mge) : Prop := m.x.opc = opcOf m.x.ki m.x.op

/-- A quiescent state (R208): nothing pending and the host program ended. -/
def State.quiescent (s : State) : Prop := s.mge.pend = none ∧ s.host.line = none

end Sys2Proof.Machine
end

