-- ==== Sys2Proof/Certificates/Slice0/Obligations.lean ====
section
/-! DEFINITION. The statements for the provers, from the numbered rules of spec/. -/

open Sys2Proof Sys2Proof.Machine

/-! ### Encoding (30_encoding.md) -/

/-- R84: "The decode function, total on all 256 byte values". -/
def Obligations.DecodeIsTheSpecTable : Prop :=
  decode 0x01#8 = .legal .enc ∧ decode 0x02#8 = .legal .dopc ∧ decode 0x03#8 = .legal .eval ∧
  decode 0x04#8 = .legal .fres ∧ decode 0x05#8 = .legal .fck ∧ decode 0x06#8 = .legal .gen ∧
  decode 0x16#8 = .legal .genU ∧
  ∀ c : Byte, c ∉ [0x01#8, 0x02#8, 0x03#8, 0x04#8, 0x05#8, 0x06#8, 0x16#8] → decode c = .illegal c

/-- R82: exactly seven command bytes are legal, each with its name, and U = 1 only with OPC4 = 0x6. -/
def Obligations.ExactlySevenLegalBytes : Prop :=
  (∀ c : Byte, (∃ i, decode c = .legal i) ↔
    c ∈ [0x01#8, 0x02#8, 0x03#8, 0x04#8, 0x05#8, 0x06#8, 0x16#8]) ∧
  [Instr.enc, .dopc, .eval, .fres, .fck, .gen, .genU].map (fun i => (encode i, mnemonicOf i)) =
    [(0x01#8, "ENC"), (0x02#8, "DOPC"), (0x03#8, "EVAL"), (0x04#8, "FRES"), (0x05#8, "FCK"), (0x06#8, "GEN"),
     (0x16#8, "GEN.U")] ∧
  (∀ c : Byte, c.getLsbD 4 = true → (∃ i, decode c = .legal i) → c.extractLsb' 0 4 = 0x6#4) ∧
  ∀ c : Byte, c ∈ [0x11#8, 0x12#8, 0x13#8, 0x14#8, 0x15#8] → decode c = .illegal c

/-- R80, R81: the fields of a command byte are OPC4 in bits 3:0, U in bit 4 and 000 in bits 7:5, OPC4 as the opcode map
gives it. -/
def Obligations.CommandFieldsFollowTheFormat : Prop :=
  (∀ i : Instr, Cmd8.ofByte (encode i) = fieldsOf i ∧ fieldsLegal (fieldsOf i) = true ∧
    ((encode i).getLsbD 4 = true ↔ i = .genU) ∧ (encode i).toNat / 32 = 0) ∧
  (∀ c : Byte, (∃ i, decode c = .legal i) ↔ fieldsLegal (Cmd8.ofByte c) = true) ∧
  ∀ c : Byte, (Cmd8.ofByte c).toByte = c

/-- Decode and encode agree, both ways (R82, R84). -/
def Obligations.DecodeInvertsEncode : Prop :=
  (∀ i : Instr, instrWF i = true → decode (encode i) = .legal i) ∧
  ∀ (c : Byte) (i : Instr), decode c = .legal i → encode i = c

/-- A few command bytes written out from R82 decode to the commands they stand for, and two illegal ones (R83) to none. -/
def Obligations.SpecWordsDecode : Prop :=
  decodeTableWord 8 0x01 = some .enc ∧ decodeTableWord 8 0x03 = some .eval ∧ decodeTableWord 8 0x04 = some .fres ∧
  decodeTableWord 8 0x06 = some .gen ∧ decodeTableWord 8 0x16 = some .genU ∧
  decodeTableWord 8 0x11 = none ∧ decodeTableWord 8 0x26 = none

/-! ### The step (60_exceptions.md R206 to R208) -/

/-- A step runs the decoded command: on the engine's turn, the command whose byte is pending (R207); its move is taken off
the agenda (log entry 4). withFetchWord places a command so (log entry 5). -/
def Obligations.StepRunsThePendingCommand : Prop :=
  (∀ (s : State) (c : Byte) (i : Instr), s.turn = .engine → s.mge.pend = some c → decode c = .legal i →
    step s = exec i s.pop) ∧
  ∀ (s : State) (nbits w : Nat) (i : Instr), decodeTableWord nbits w = some i →
    step (s.withFetchWord nbits w) = exec i { s with mge := s.mge.accept (tableByte nbits w) }

/-- R83: an illegal byte is accepted like any command (R206), then completes with ILLEGAL_COMMAND, NCALLS 0, and no slot or
`len` changed (R207). The model's choice: the step takes its own move off the agenda and leaves the coming moves (log entry 4),
the host (log entry 3) and the parameter `CIPHER_MAY_FAIL` (log entry 1), which State holds beside MGE. -/
def Obligations.IllegalByteEndsInIllegalCommand : Prop :=
  (∀ c : Byte, c ∉ [0x01#8, 0x02#8, 0x03#8, 0x04#8, 0x05#8, 0x06#8, 0x16#8] → decode c = .illegal c) ∧
  (∀ (m : Mge) (c : Byte), m.pend = none → m.memWrite 0xF0#8 c = m.accept c) ∧
  ∀ (s : State) (c : Byte), c ∉ [0x01#8, 0x02#8, 0x03#8, 0x04#8, 0x05#8, 0x06#8, 0x16#8] → s.turn = .engine →
    s.mge.pend = some c →
    ∃ t, step s = .next t ∧ Mge.EndedErr s.mge t.mge .illegalCommand 0 ∧ t.mge.errcode = 0x05#8 ∧
      State.OutsideKept s.pop t

/-- R208: any agent may take the next step: for each there is an agenda under which it does. With no move listed the model
gives a pending command to the engine, else the host moves (the model's choice, log entry 4). That the reset event leaves the
host and the inputs as they are is the model's choice too (log entries 1 to 4). -/
def Obligations.EveryAgentCanMoveNext : Prop :=
  ∀ s : State,
    step { s with agenda := .host :: s.agenda } = s.hostStep ∧
    step { s with agenda := .engine :: s.agenda } = s.engineStep ∧
    step { s with agenda := .reset :: s.agenda } = .next { s with mge := Mge.reset } ∧
    (s.agenda = [] → s.mge.pend ≠ none → step s = s.engineStep) ∧
    (s.agenda = [] → s.mge.pend = none → step s = s.hostStep)

/-- R59: a step is one host access, one engine completion step, or the environment's reset (R208); a host move that makes no
write leaves MGE as it was. The engine's step is the completion of the pending byte (R207). The model's choice: each step takes
one move off the agenda, and the engine's turn with nothing pending is an idle move (log entry 4); the reset event leaves the
host (log entry 3). -/
def Obligations.EveryStepIsOneAgentsMove : Prop :=
  ∀ s t : State, step s = .next t →
    t.agenda = s.agenda.tail ∧
    (t.mge = s.mge ∨
     (s.turn = .host ∧ ∃ a v, t.mge = s.mge.memWrite a v ∧ t.host.trace = .w a v :: s.host.trace) ∨
     (s.turn = .engine ∧ (∃ c, s.mge.pend = some c ∧
         ((∃ i, decode c = .legal i ∧ exec i s.pop = .next t) ∨
          (decode c = .illegal c ∧ t = s.pop.finish (.err .illegalCommand 0)))) ∧
       t.mge.pend = none ∧ t.mge.done = true ∧ t.mge.ovr = s.mge.ovr ∧ t.host = s.host) ∨
     (s.turn = .reset ∧ t.mge = Mge.reset ∧ t.host = s.host))

/-- R208's fairness: whatever moves are listed, a pending command stays pending, with nothing but OVR changed, for at most
that many steps, and the step after them ends it: the engine's completion step (R207), with DONE = 1; or, where a reset is
among the moves listed, the reset event, which abandons it (R230). The agenda, and the engine's move after it, are the
model's form of weak fairness (log entry 4). -/
def Obligations.PendingCommandIsCompletedOrAbandoned : Prop :=
  ∀ s : State, programWF s.host.prog = true → s.mge.pend ≠ none →
    ∃ k, k ≤ s.agenda.length ∧ ∃ u t, core.run k s = .next u ∧ (∃ b : Bool, u.mge = { s.mge with ovr := b }) ∧
      step u = .next t ∧ t.mge.pend = none ∧
      ((u.turn = .engine ∧ u.pop.engineStep = .next t ∧ t.mge.done = true) ∨
       (u.turn = .reset ∧ Turn.reset ∈ s.agenda ∧ t.mge = Mge.reset))

/-- A machine whose host program is well-formed never stops (R208: MGE has no stuck state), and keeps its program. The model's
choice: in a quiescent state, where R208 takes no step, and on the turn of an agent that is not enabled, the step is an idle
move (log entry 4); what a missing label does is the model's too (log entry 6). -/
def Obligations.WellFormedProgramNeverStops : Prop :=
  ∀ s : State, programWF s.host.prog = true → ∃ t, step s = .next t ∧ t.host.prog = s.host.prog

/-- The only stops are the host's own: a jump to a label no line carries (log entry 6), and an access of another width than
one byte (R56). MGE itself never stops (R208, R209). -/
def Obligations.StopsAreTheHostsAlone : Prop :=
  ∀ s : State,
    (∀ f, step s = .fault f → s.turn = .host ∧ ∃ l, f = .undefinedLabel l ∧ s.host.target l = none) ∧
    (∀ r, step s = .refused r → s.turn = .host ∧ ∃ n, n ≠ 1 ∧ r = .accessWidth n)

/-- R56: every host access is one byte wide; one of another width is refused, and one of one byte is as `rd` and `wr`. -/
def Obligations.WideAccessIsRefused : Prop :=
  (∀ (s : State) (a : Byte) (n : Nat), n ≠ 1 → s.hostStmt (.readWide a n) = .refused (.accessWidth n)) ∧
  (∀ (s : State) (a : Byte) (n v : Nat), n ≠ 1 → s.hostStmt (.writeWide a n v) = .refused (.accessWidth n)) ∧
  (∀ (s : State) (a v : Byte), s.hostStmt (.writeWide a 1 v.toNat) = s.hostStmt (.wr a v)) ∧
  ∀ (s : State) (a : Byte), ∃ t, s.hostStmt (.readWide a 1) = .next t ∧ t.mge = s.mge ∧
    t.host.trace = .r a (s.mge.memRead a) :: s.host.trace

/-- R208, R219: in a quiescent state (nothing pending, the host program ended) every state survives: a step that is not the
reset event changes nothing but the agenda. -/
def Obligations.QuiescentMachineStaysAsItIs : Prop :=
  ∀ s : State, s.quiescent → s.turn ≠ .reset → step s = .next s.pop

/-- The host's variables stand once each, and every step keeps it so: the form in which State holds them (log entry 3). -/
def Obligations.StepKeepsTheHostVariablesDistinct : Prop :=
  ∀ s t : State, (s.host.vars.map (·.1)).Nodup → step s = .next t → (t.host.vars.map (·.1)).Nodup

/-! ### Reset (10_state.md R36, 70_reset_and_hazards.md R230, R232) -/

/-- R36: after reset every data byte is 0x00, every `len` 0, nothing pending, every flag 0, ERRCODE and NCALLS 0; and a command
issued then fails on a length check, with no invocation made. -/
def Obligations.ResetLeavesTheSpecValues : Prop :=
  (∀ (sl : Slot) (i : Fin sl.cap), (State.reset.mge.x.get sl).get i = 0x00#8) ∧
  (∀ sl : Slot, State.reset.mge.len.get sl = 0#8) ∧
  State.reset.mge.pend = none ∧ State.reset.mge.done = false ∧ State.reset.mge.err = false ∧
  State.reset.mge.ovr = false ∧ State.reset.mge.errcode = 0x00#8 ∧ State.reset.mge.ncalls = 0#8 ∧
  ∀ i : Instr, ∃ e t, lengthError i State.reset.mge.len = some e ∧ exec i State.reset = .next t ∧
    Mge.EndedErr State.reset.mge t.mge e 0

/-- R230: the reset event can happen at any step, from any state; it sets every piece of MGE's state to its reset value, and
a pending command is abandoned. The model's choice: the host (log entry 3), the parameter `CIPHER_MAY_FAIL` (log entry 1) and
the coming moves (log entry 4), which State holds beside MGE, stay. -/
def Obligations.ResetEventFromAnyState : Prop :=
  (∀ s : State, ({ s with agenda := .reset :: s.agenda } : State).turn = .reset) ∧
  ∀ s : State, s.turn = .reset → ∃ t, step s = .next t ∧
    (∀ (sl : Slot) (i : Fin sl.cap), (t.mge.x.get sl).get i = 0x00#8) ∧ (∀ sl : Slot, t.mge.len.get sl = 0#8) ∧
    t.mge.pend = none ∧ t.mge.done = false ∧ t.mge.err = false ∧ t.mge.ovr = false ∧ t.mge.errcode = 0x00#8 ∧
    t.mge.ncalls = 0#8 ∧ State.OutsideKept s.pop t

/-- R232: a command run while every `len` is 0 fails, ENC with INVALID_KEY_LENGTH and every other with INVALID_LENGTH, makes
no invocation and changes no slot. -/
def Obligations.CommandsFailBeforeLoading : Prop :=
  ∀ (i : Instr) (s : State), (∀ sl : Slot, s.mge.len.get sl = 0#8) →
    ∃ t, exec i s = .next t ∧
      Mge.EndedErr s.mge t.mge (if i = .enc then .invalidKeyLength else .invalidLength) 0

/-! ### Invariants (10_state.md R34) -/

/-- R34's invariants, and the three that follow from the rules for errors, hold at reset. -/
def Obligations.ResetMeetsTheInvariant : Prop := State.reset.mge.Inv

/-- R34's invariants, and the three that follow from the rules for errors, are kept by every step: of the host, of the engine
and of the environment, from every state that meets them. -/
def Obligations.StepKeepsTheInvariant : Prop :=
  ∀ s t : State, s.mge.Inv → step s = .next t → t.mge.Inv

/-! ### The window (10_state.md R20 to R31, 20_memory.md R50 to R59) -/

/-- R25: bit 0 of STATUS is BUSY, bit 1 DONE, bit 2 ERR, bit 3 OVR, bits 7:4 read 0; a write clears OVR when its bit 3 is 1
and changes nothing else; ERR = 1 implies DONE = 1, and BUSY = 1 implies DONE = 0 and ERR = 0, where R34 holds. -/
def Obligations.StatusByteShowsTheFlags : Prop :=
  (∀ m : Mge, (m.memRead 0xF1#8).getLsbD 0 = m.pend.isSome ∧ (m.memRead 0xF1#8).getLsbD 1 = m.done ∧
    (m.memRead 0xF1#8).getLsbD 2 = m.err ∧ (m.memRead 0xF1#8).getLsbD 3 = m.ovr ∧ (m.memRead 0xF1#8).toNat < 16) ∧
  (∀ (m : Mge) (v : Byte), v.getLsbD 3 = true → m.memWrite 0xF1#8 v = { m with ovr := false }) ∧
  (∀ (m : Mge) (v : Byte), v.getLsbD 3 = false → m.memWrite 0xF1#8 v = m) ∧
  ∀ m : Mge, m.Inv → (m.err = true → m.done = true) ∧ (m.pend.isSome = true → m.done = false ∧ m.err = false)

/-- R20, R52: each slot's capacity, first data address and `len` address are the table's; byte `i` of a slot is `i` above its
first address; the map finds each of these places. -/
def Obligations.SlotMapIsTheTable : Prop :=
  Slot.all.map (fun sl => (sl.text, sl.cap, dataAddr sl 0, lenAddr sl)) =
    [("KI", 16, 0x00#8, 0xA0#8), ("OP", 16, 0x10#8, 0xA1#8), ("OPC", 16, 0x20#8, 0xA2#8),
     ("RAND", 16, 0x30#8, 0xA3#8), ("BLK", 16, 0x40#8, 0xA4#8), ("OUT", 16, 0x50#8, 0xA5#8)] ++
    [("RES", 8, 0x60#8, 0xA6#8), ("SRES", 4, 0x68#8, 0xA7#8), ("CK", 16, 0x70#8, 0xA8#8),
     ("IK", 16, 0x80#8, 0xA9#8), ("KC", 8, 0x90#8, 0xAA#8)] ∧
  (∀ (sl : Slot) (i : Nat), dataAddr sl i = dataAddr sl 0 + BitVec.ofNat 8 i) ∧
  (∀ (sl : Slot) (i : Fin sl.cap), locate (dataAddr sl i.val) = .data sl i) ∧
  (∀ sl : Slot, locate (lenAddr sl) = .len sl) ∧
  locate 0xF0#8 = .cmd ∧ locate 0xF1#8 = .status ∧ locate 0xF2#8 = .errcode ∧ locate 0xF3#8 = .ncalls

/-- R50: what a host read returns at every address, whether or not a command is pending; and a read changes nothing in MGE.
The host variable read into is the model's own field (log entry 3). -/
def Obligations.HostReadReturnsTheTable : Prop :=
  (∀ (m : Mge) (i : Fin 16), m.memRead (dataAddr .ki i.val) = 0x00#8) ∧
  (∀ (m : Mge) (sl : Slot) (i : Fin sl.cap), sl ≠ .ki → m.memRead (dataAddr sl i.val) = (m.x.get sl).get i) ∧
  (∀ (m : Mge) (sl : Slot), m.memRead (lenAddr sl) = m.len.get sl) ∧
  (∀ m : Mge, m.memRead 0xF0#8 = 0x00#8 ∧
    m.memRead 0xF1#8 = (BitVec.ofBool m.ovr ++ BitVec.ofBool m.err ++ BitVec.ofBool m.done ++
      BitVec.ofBool m.pend.isSome).setWidth 8 ∧
    m.memRead 0xF2#8 = m.errcode ∧ m.memRead 0xF3#8 = m.ncalls) ∧
  (∀ (m : Mge) (a : Byte), ((0x6C ≤ a.toNat ∧ a.toNat ≤ 0x6F) ∨ (0x98 ≤ a.toNat ∧ a.toNat ≤ 0x9F) ∨
    (0xAB ≤ a.toNat ∧ a.toNat ≤ 0xEF) ∨ 0xF4 ≤ a.toNat) → m.memRead a = 0x00#8) ∧
  ∀ (s : State) (a : Byte) (h : HVar), ∃ t, s.hostStmt (.rd a h) = .next t ∧ t.mge = s.mge ∧
    t.host.get h = s.mge.memRead a

/-- R51: what a host write does at every address, idle and BUSY. -/
def Obligations.HostWriteFollowsTheRule : Prop :=
  (∀ (m : Mge) (sl : Slot) (i : Fin sl.cap) (v : Byte), m.memWrite (dataAddr sl i.val) v =
    if m.pend.isSome then { m with ovr := true }
    else { m with x := m.x.set sl ((m.x.get sl).set i.val v i.isLt) }) ∧
  (∀ (m : Mge) (sl : Slot) (v : Byte), m.memWrite (lenAddr sl) v =
    if m.pend.isSome then { m with ovr := true } else { m with len := m.len.set sl v }) ∧
  (∀ (m : Mge) (v : Byte), m.memWrite 0xF0#8 v =
    if m.pend.isSome then { m with ovr := true }
    else { m with pend := some v, done := false, err := false, errcode := 0x00#8, ncalls := 0#8 }) ∧
  (∀ (m : Mge) (v : Byte), m.memWrite 0xF1#8 v = if v.getLsbD 3 then { m with ovr := false } else m) ∧
  (∀ (m : Mge) (v : Byte), m.memWrite 0xF2#8 v = m ∧ m.memWrite 0xF3#8 v = m) ∧
  ∀ (m : Mge) (a v : Byte), ((0x6C ≤ a.toNat ∧ a.toNat ≤ 0x6F) ∨ (0x98 ≤ a.toNat ∧ a.toNat ≤ 0x9F) ∨
    (0xAB ≤ a.toNat ∧ a.toNat ≤ 0xEF) ∨ 0xF4 ≤ a.toNat) → m.memWrite a v = m

/-- R53: the reserved addresses are these ranges and no other; they read 0x00 and ignore writes, OVR included, even while
BUSY; and no one-byte access stops the machine. -/
def Obligations.ReservedAddressesDoNothing : Prop :=
  (∀ a : Byte, locate a = .reserved ↔ ((0x6C ≤ a.toNat ∧ a.toNat ≤ 0x6F) ∨ (0x98 ≤ a.toNat ∧ a.toNat ≤ 0x9F) ∨
    (0xAB ≤ a.toNat ∧ a.toNat ≤ 0xEF) ∨ (0xF4 ≤ a.toNat ∧ a.toNat ≤ 0xFF))) ∧
  (∀ (m : Mge) (a v : Byte), locate a = .reserved → m.memRead a = 0x00#8 ∧ m.memWrite a v = m) ∧
  ∀ (s : State) (a v : Byte) (h : HVar), (∃ t, s.hostStmt (.wr a v) = .next t) ∧ ∃ t, s.hostStmt (.rd a h) = .next t

/-- R23, R63: the host cannot read KI's data: two machines that differ in nothing else answer every read alike, and any move
of the host leaves the host the same in both. -/
def Obligations.KiDataCannotBeReadBack : Prop :=
  (∀ (m : Mge) (k : Block) (a : Byte), Mge.memRead { m with x := { m.x with ki := k } } a = m.memRead a) ∧
  ∀ (s t t' : State) (k : Block), s.hostStep = .next t →
    State.hostStep { s with mge := { s.mge with x := { s.mge.x with ki := k } } } = .next t' → t'.host = t.host

/-- R23: a data write sets that byte and no `len`; a `len` write changes no data byte; KI's data reads 0x00 whatever it
holds, every other byte reads as stored, and every `len` reads back. -/
def Obligations.SlotAccessFollowsTheRule : Prop :=
  (∀ (m : Mge) (sl : Slot) (i : Fin sl.cap) (v : Byte), m.pend = none →
    ((m.memWrite (dataAddr sl i.val) v).x.get sl).get i = v ∧
    (∀ j : Fin sl.cap, j ≠ i → ((m.memWrite (dataAddr sl i.val) v).x.get sl).get j = (m.x.get sl).get j) ∧
    (∀ sl', sl' ≠ sl → (m.memWrite (dataAddr sl i.val) v).x.get sl' = m.x.get sl') ∧
    (m.memWrite (dataAddr sl i.val) v).len = m.len) ∧
  (∀ (m : Mge) (sl : Slot) (v : Byte), m.pend = none →
    (m.memWrite (lenAddr sl) v).x = m.x ∧ (m.memWrite (lenAddr sl) v).len.get sl = v ∧
    (m.memWrite (lenAddr sl) v).memRead (lenAddr sl) = v) ∧
  (∀ (m : Mge) (i : Fin 16), m.memRead (dataAddr .ki i.val) = 0x00#8) ∧
  ∀ (m : Mge) (sl : Slot) (i : Fin sl.cap), sl ≠ .ki → m.memRead (dataAddr sl i.val) = (m.x.get sl).get i

/-- A byte written while idle reads back, at every data address but KI's and every `len` address, and no other address reads
otherwise than before (R57, R59). -/
def Obligations.WriteThenReadBack : Prop :=
  (∀ (m : Mge) (sl : Slot) (i : Fin sl.cap) (v : Byte), m.pend = none → sl ≠ .ki →
    (m.memWrite (dataAddr sl i.val) v).memRead (dataAddr sl i.val) = v) ∧
  (∀ (m : Mge) (sl : Slot) (v : Byte), m.pend = none → (m.memWrite (lenAddr sl) v).memRead (lenAddr sl) = v) ∧
  ∀ (m : Mge) (a b v : Byte), m.pend = none → a ≠ b → a ≠ 0xF0#8 → a ≠ 0xF1#8 →
    (m.memWrite a v).memRead b = m.memRead b

/-- R57, R234: while a command is pending no host move changes a slot, a `len`, DONE, ERR, ERRCODE, NCALLS or PEND: only OVR
can change. So a command runs on the operands present when it was accepted. -/
def Obligations.HostCannotDisturbAPendingCommand : Prop :=
  ∀ s t : State, s.mge.pend ≠ none → s.turn = .host → step s = .next t → ∃ b : Bool, t.mge = { s.mge with ovr := b }

/-- R213: setting OVR changes neither ERR nor ERRCODE and does not end the pending command; OVR stays 1 until the host writes
STATUS with bit 3, or reset. Whose turn it is and the trace of writes are the model's own fields (log
entries 4 and 3). -/
def Obligations.OvrStaysUntilCleared : Prop :=
  (∀ (m : Mge) (a v : Byte), m.ovr = false → (m.memWrite a v).ovr = true →
    (m.memWrite a v).err = m.err ∧ (m.memWrite a v).errcode = m.errcode ∧ (m.memWrite a v).pend = m.pend) ∧
  ∀ s t : State, s.mge.ovr = true → step s = .next t →
    t.mge.ovr = true ∨ s.turn = .reset ∨
    (s.turn = .host ∧ ∃ v : Byte, v.getLsbD 3 = true ∧ t.host.trace = .w 0xF1#8 v :: s.host.trace)

/-- R25, R51: OVR becomes 1 only by a host write, while a command is pending, to CMD, a slot data byte or a `len` register. -/
def Obligations.OvrIsSetOnlyByALostWrite : Prop :=
  ∀ s t : State, s.mge.ovr = false → step s = .next t → t.mge.ovr = true →
    s.mge.pend ≠ none ∧ ∃ a v : Byte, t.host.trace = .w a v :: s.host.trace ∧
      (a = 0xF0#8 ∨ (∃ sl : Slot, a = lenAddr sl) ∨ ∃ (sl : Slot) (i : Fin sl.cap), a = dataAddr sl i.val)

/-- R31: an accepted CMD write sets PEND; the engine's completion step clears it; BUSY reads 1 exactly when PEND holds a
byte; and no read tells one pending byte from another. -/
def Obligations.PendingByteIsHidden : Prop :=
  (∀ (m : Mge) (v : Byte), m.pend = none → (m.memWrite 0xF0#8 v).pend = some v) ∧
  (∀ s : State, s.mge.pend ≠ none → ∃ t, s.engineStep = .next t ∧ t.mge.pend = none) ∧
  (∀ m : Mge, (m.memRead 0xF1#8).getLsbD 0 = true ↔ m.pend ≠ none) ∧
  ∀ (m : Mge) (c d a : Byte), Mge.memRead { m with pend := some c } a = Mge.memRead { m with pend := some d } a

/-- R21: `len[s]` changes only by a host write of it while idle, by a command that writes slot `s` on success (which sets it
to the capacity), or by reset. -/
def Obligations.LenChangesOnlyByThreeEvents : Prop :=
  ∀ (s t : State) (sl : Slot), step s = .next t → t.mge.len.get sl ≠ s.mge.len.get sl →
    (s.turn = .host ∧ s.mge.pend = none ∧ ∃ v, t.host.trace = .w (lenAddr sl) v :: s.host.trace ∧
      t.mge.len.get sl = v) ∨
    (s.turn = .engine ∧ t.mge.err = false ∧ t.mge.len.get sl = BitVec.ofNat 8 sl.cap ∧
      ∃ c i, s.mge.pend = some c ∧ decode c = .legal i ∧ sl ∈ resultsOf i) ∨
    s.turn = .reset

/-! ### Acceptance and completion (60_exceptions.md R200 to R207) -/

/-- R206: a CMD write while nothing is pending accepts the command; while one is pending it sets OVR and changes nothing
else. -/
def Obligations.CmdWriteAcceptsWhenIdle : Prop :=
  (∀ (m : Mge) (v : Byte), m.pend = none → m.memWrite 0xF0#8 v =
    { m with pend := some v, done := false, err := false, errcode := 0x00#8, ncalls := 0#8 }) ∧
  ∀ (m : Mge) (v : Byte), m.pend ≠ none → m.memWrite 0xF0#8 v = { m with ovr := true }

/-- Every command completes, from every state, by one step that leaves DONE = 1, nothing pending, ERRCODE zero exactly when ERR
is 0, and OVR, the host and the parameter as they were (R207); it uses as many draws as it made invocations (R208).
The model's own fields are kept too: the host, the agenda and `CIPHER_MAY_FAIL` (log entries 3, 4 and 1). -/
def Obligations.EveryCommandCompletes : Prop :=
  ∀ (i : Instr) (s : State), ∃ t, exec i s = .next t ∧ t.mge.pend = none ∧ t.mge.done = true ∧
    (t.mge.errcode = 0x00#8 ↔ t.mge.err = false) ∧ t.mge.ncalls.toNat ≤ invocationsOf i ∧ t.mge.ovr = s.mge.ovr ∧
    t.oracle.draws = s.oracle.draws.drop t.mge.ncalls.toNat ∧ State.OutsideKept s t

/-- R202: after a failed command every slot and every `len` register holds what it held. -/
def Obligations.FailedCommandChangesNoSlot : Prop :=
  ∀ (i : Instr) (s t : State), exec i s = .next t → t.mge.err = true →
    t.mge.x = s.mge.x ∧ t.mge.len = s.mge.len

/-- The frame of every command: only its result slots (R20's last column) can change, a success declares each of them at its
capacity (R21), and every window address outside them and outside STATUS, ERRCODE and NCALLS reads as before. -/
def Obligations.CommandWritesOnlyItsResults : Prop :=
  ∀ (i : Instr) (s t : State), exec i s = .next t →
    Mge.KeptBut (resultsOf i) s.mge t.mge ∧
    (t.mge.err = false → ∀ sl ∈ resultsOf i, t.mge.len.get sl = BitVec.ofNat 8 sl.cap) ∧
    ∀ a : Byte, (∀ sl ∈ resultsOf i, a ≠ lenAddr sl ∧ ∀ j : Fin sl.cap, a ≠ dataAddr sl j.val) →
      a ≠ 0xF1#8 → a ≠ 0xF2#8 → a ≠ 0xF3#8 → t.mge.memRead a = s.mge.memRead a

/-- R240: NCALLS after a successful command: ENC 1, DOPC 1, EVAL 4, FRES 0, FCK 0, GEN 5, GEN.U 4. -/
def Obligations.SuccessfulCommandCountsItsInvocations : Prop :=
  ∀ (i : Instr) (s t : State), exec i s = .next t → t.mge.err = false →
    t.mge.ncalls = match i with
      | .enc => 1#8 | .dopc => 1#8 | .eval => 4#8 | .fres => 0#8 | .fck => 0#8 | .gen => 5#8 | .genU => 4#8

/-- R200: the numeric codes, and which errors a command can report. -/
def Obligations.CommandReportsOnlyItsErrors : Prop :=
  Err.code .invalidLength = 0x01#8 ∧ Err.code .invalidKeyLength = 0x02#8 ∧ Err.code .invalidBlockLength = 0x03#8 ∧
  Err.code .cipherFailure = 0x04#8 ∧ Err.code .illegalCommand = 0x05#8 ∧
  ∀ (i : Instr) (s t : State), exec i s = .next t →
    (t.mge.err = false ∧ t.mge.errcode = 0x00#8) ∨
    (t.mge.err = true ∧ ∃ e ∈ errorsOf i, t.mge.errcode = e.code)

/-- A command's outcome depends on nothing but the lengths it checks, the data it reads and the draws: two machines that agree
on these end it alike (R85, R100, R165; R190: GEN.U reads no byte of OP). -/
def Obligations.OutcomeDependsOnOperandsOnly : Prop :=
  ∀ (i : Instr) (s s' t t' : State), s.oracle = s'.oracle →
    (∀ sl ∈ operandsOf i, s.mge.len.get sl = s'.mge.len.get sl) →
    (∀ sl ∈ dataOf i, s.mge.x.get sl = s'.mge.x.get sl) →
    exec i s = .next t → exec i s' = .next t' →
    t.mge.err = t'.mge.err ∧ t.mge.errcode = t'.mge.errcode ∧ t.mge.ncalls = t'.mge.ncalls ∧
    (t.mge.err = false → ∀ sl ∈ resultsOf i, t.mge.x.get sl = t'.mge.x.get sl)

/-- R203, R101, R202, R207: a command reports exactly one error, the first that applies: its length checks in order, with no
invocation made; then the first invocation whose draw fails, with its number in NCALLS; and an illegal byte ILLEGAL_COMMAND
with no other check. The model's own fields are kept too: the host, the agenda and `CIPHER_MAY_FAIL` (log entries 3, 4 and
1). -/
def Obligations.CommandReportsItsFirstError : Prop :=
  (∀ (i : Instr) (s : State) (e : Err), lengthError i s.mge.len = some e →
    ∃ t, exec i s = .next t ∧ Mge.EndedErr s.mge t.mge e 0 ∧ State.OutsideKept s t) ∧
  (∀ (i : Instr) (s : State) (n : Nat), lengthError i s.mge.len = none → n < invocationsOf i → s.oracle.allOk n →
    s.oracle.drawAt n = .fail →
    ∃ t, exec i s = .next t ∧ Mge.EndedErr s.mge t.mge .cipherFailure (n + 1) ∧ State.OutsideKept s t) ∧
  (∀ (i : Instr) (s : State), lengthError i s.mge.len = none → s.oracle.allOk (invocationsOf i) →
    ∃ t, exec i s = .next t ∧ Mge.EndedOk s.mge t.mge (invocationsOf i) ∧ State.OutsideKept s t) ∧
  ∀ (s : State) (c d : Byte), s.turn = .engine → s.mge.pend = some c → decode c = .illegal d →
    ∃ t, step s = .next t ∧ Mge.EndedErr s.mge t.mge .illegalCommand 0

/-! ### The commands' results -/

/-- ENC (R103) with both operands well-formed and its invocation not failing: OUT is `E(KI, BLK)`, of length 16; every other
slot is kept.
The model's own fields are kept too: the host, the agenda and `CIPHER_MAY_FAIL` (log entries 3, 4 and 1). -/
def Obligations.EncEncryptsTheBlock : Prop :=
  ∀ s : State, s.mge.len.ki = 16#8 → s.mge.len.blk = 16#8 → s.oracle.allOk 1 →
    ∃ t, exec .enc s = .next t ∧ t.mge.x.out = E s.mge.x.ki s.mge.x.blk ∧ t.mge.len.out = 16#8 ∧
      Mge.KeptBut [.out] s.mge t.mge ∧ Mge.EndedOk s.mge t.mge 1 ∧ State.OutsideKept s t

/-- DOPC (R150): OPC is `E(KI, OP) ⊕ OP`, of length 16; every other slot is kept.
The model's own fields are kept too: the host, the agenda and `CIPHER_MAY_FAIL` (log entries 3, 4 and 1). -/
def Obligations.DopcDerivesTheOpc : Prop :=
  ∀ s : State, s.mge.len.ki = 16#8 → s.mge.len.op = 16#8 → s.oracle.allOk 1 →
    ∃ t, exec .dopc s = .next t ∧ t.mge.x.opc = xorB (E s.mge.x.ki s.mge.x.op) s.mge.x.op ∧ t.mge.len.opc = 16#8 ∧
      Mge.KeptBut [.opc] s.mge t.mge ∧ Mge.EndedOk s.mge t.mge 1 ∧ State.OutsideKept s t

/-- EVAL (R160, R161): RES, CK and IK by the algorithm's steps on KI, OPC and RAND, of lengths 8, 16 and 16; every other slot
is kept.
The model's own fields are kept too: the host, the agenda and `CIPHER_MAY_FAIL` (log entries 3, 4 and 1). -/
def Obligations.EvalComputesMilenage : Prop :=
  ∀ s : State, s.mge.len.ki = 16#8 → s.mge.len.opc = 16#8 → s.mge.len.rand = 16#8 → s.oracle.allOk 4 →
    let k := s.mge.x.ki
    let o := s.mge.x.opc
    let u := xorB (E k (xorB s.mge.x.rand o)) o
    ∃ t, exec .eval s = .next t ∧
      (∀ i : Fin 8, t.mge.x.res.get i = (xorB (E k (flip u 0x01#8)) o)[i.val + 8]) ∧
      t.mge.x.ck = xorB (E k (flip (rotb u 4) 0x02#8)) o ∧
      t.mge.x.ik = xorB (E k (flip (rotb u 8) 0x04#8)) o ∧
      t.mge.len.res = 8#8 ∧ t.mge.len.ck = 16#8 ∧ t.mge.len.ik = 16#8 ∧
      Mge.KeptBut [.res, .ck, .ik] s.mge t.mge ∧ Mge.EndedOk s.mge t.mge 4 ∧ State.OutsideKept s t

/-- FRES (R180, R181, R207): `SRES[i] = RES[i] xor RES[i+4]`, of length 4, with no invocation; every other slot is kept.
The model's own fields are kept too: the host, the agenda and `CIPHER_MAY_FAIL` (log entries 3, 4 and 1). -/
def Obligations.FresFoldsTheResponse : Prop :=
  ∀ s : State, s.mge.len.res = 8#8 →
    ∃ t, exec .fres s = .next t ∧
      (∀ i : Fin 4, t.mge.x.sres.get i = s.mge.x.res[i.val] ^^^ s.mge.x.res[i.val + 4]) ∧ t.mge.len.sres = 4#8 ∧
      Mge.KeptBut [.sres] s.mge t.mge ∧ Mge.EndedOk s.mge t.mge 0 ∧ State.OutsideKept s t

/-- FCK (R182, R183, R207): `KC[i] = CK[i] xor CK[i+8] xor IK[i] xor IK[i+8]`, of length 8, with no invocation; every other
slot is kept. The model's own fields are kept too: the host, the agenda and `CIPHER_MAY_FAIL` (log entries 3, 4 and 1). -/
def Obligations.FckFoldsTheKeys : Prop :=
  ∀ s : State, s.mge.len.ck = 16#8 → s.mge.len.ik = 16#8 →
    ∃ t, exec .fck s = .next t ∧
      (∀ i : Fin 8, t.mge.x.kc.get i =
        s.mge.x.ck[i.val] ^^^ s.mge.x.ck[i.val + 8] ^^^ s.mge.x.ik[i.val] ^^^ s.mge.x.ik[i.val + 8]) ∧
      t.mge.len.kc = 8#8 ∧
      Mge.KeptBut [.kc] s.mge t.mge ∧ Mge.EndedOk s.mge t.mge 0 ∧ State.OutsideKept s t

/-- GEN with U = 0 (R190): OPC derived and written; SRES and KC the folds of `M(KI, that OPC, RAND)`; five invocations; RES,
CK, IK and every other slot kept.
The model's own fields are kept too: the host, the agenda and `CIPHER_MAY_FAIL` (log entries 3, 4 and 1). -/
def Obligations.GenMakesTheTriplet : Prop :=
  ∀ s : State, s.mge.len.ki = 16#8 → s.mge.len.op = 16#8 → s.mge.len.rand = 16#8 → s.oracle.allOk 5 →
    let k := s.mge.x.ki
    let o := xorB (E k s.mge.x.op) s.mge.x.op
    let u := xorB (E k (xorB s.mge.x.rand o)) o
    let t3 := xorB (E k (flip u 0x01#8)) o
    let ck := xorB (E k (flip (rotb u 4) 0x02#8)) o
    let ik := xorB (E k (flip (rotb u 8) 0x04#8)) o
    ∃ t, exec .gen s = .next t ∧ t.mge.x.opc = o ∧
      (∀ i : Fin 4, t.mge.x.sres.get i = t3[i.val + 8] ^^^ t3[i.val + 12]) ∧
      (∀ i : Fin 8, t.mge.x.kc.get i = ck[i.val] ^^^ ck[i.val + 8] ^^^ ik[i.val] ^^^ ik[i.val + 8]) ∧
      t.mge.len.opc = 16#8 ∧ t.mge.len.sres = 4#8 ∧ t.mge.len.kc = 8#8 ∧
      Mge.KeptBut [.opc, .sres, .kc] s.mge t.mge ∧ Mge.EndedOk s.mge t.mge 5 ∧ State.OutsideKept s t

/-- GEN.U (R190, R192): SRES and KC the folds of `M(KI, OPC, RAND)` for whatever the OPC slot holds, OP's length checked; four
invocations; OPC and every other slot kept.
The model's own fields are kept too: the host, the agenda and `CIPHER_MAY_FAIL` (log entries 3, 4 and 1). -/
def Obligations.GenUMakesTheTripletFromTheOpcSlot : Prop :=
  ∀ s : State, s.mge.len.ki = 16#8 → s.mge.len.op = 16#8 → s.mge.len.rand = 16#8 → s.mge.len.opc = 16#8 →
    s.oracle.allOk 4 →
    let k := s.mge.x.ki
    let o := s.mge.x.opc
    let u := xorB (E k (xorB s.mge.x.rand o)) o
    let t3 := xorB (E k (flip u 0x01#8)) o
    let ck := xorB (E k (flip (rotb u 4) 0x02#8)) o
    let ik := xorB (E k (flip (rotb u 8) 0x04#8)) o
    ∃ t, exec .genU s = .next t ∧
      (∀ i : Fin 4, t.mge.x.sres.get i = t3[i.val + 8] ^^^ t3[i.val + 12]) ∧
      (∀ i : Fin 8, t.mge.x.kc.get i = ck[i.val] ^^^ ck[i.val + 8] ^^^ ik[i.val] ^^^ ik[i.val + 8]) ∧
      t.mge.len.sres = 4#8 ∧ t.mge.len.kc = 8#8 ∧
      Mge.KeptBut [.sres, .kc] s.mge t.mge ∧ Mge.EndedOk s.mge t.mge 4 ∧ State.OutsideKept s t

/-! ### Laws between commands -/

/-- R151: a successful DOPC leaves `x[OPC] = E(KI, OP) ⊕ OP`; and an ENC with BLK = OP, its OUT XORed with OP by the host,
gives the same bytes. -/
def Obligations.DopcIsEncXorOp : Prop :=
  (∀ s t : State, exec .dopc s = .next t → t.mge.err = false →
    t.mge.x.opc = xorB (E s.mge.x.ki s.mge.x.op) s.mge.x.op) ∧
  ∀ s d e : State, s.mge.x.blk = s.mge.x.op → exec .dopc s = .next d → d.mge.err = false →
    exec .enc s = .next e → e.mge.err = false → xorB e.mge.x.out s.mge.x.op = d.mge.x.opc

/-- R191: a successful GEN leaves in OPC, SRES and KC what DOPC, then EVAL, then FRES, then FCK leave from the same KI, OP and
RAND, and unlike them keeps RES, CK and IK. The four commands are run as four completion steps in a row: their acceptance
changes no slot (R206). -/
def Obligations.GenIsTheFourCommandsComposed : Prop :=
  ∀ s : State, s.mge.len.ki = 16#8 → s.mge.len.op = 16#8 → s.mge.len.rand = 16#8 → s.oracle.allOk 5 →
    ∃ g a b c d, exec .gen s = .next g ∧ exec .dopc s = .next a ∧ exec .eval a = .next b ∧
      exec .fres b = .next c ∧ exec .fck c = .next d ∧
      g.mge.err = false ∧ a.mge.err = false ∧ b.mge.err = false ∧ c.mge.err = false ∧ d.mge.err = false ∧
      g.mge.x.opc = d.mge.x.opc ∧ g.mge.x.sres = d.mge.x.sres ∧ g.mge.x.kc = d.mge.x.kc ∧
      g.mge.x.res = s.mge.x.res ∧ g.mge.x.ck = s.mge.x.ck ∧ g.mge.x.ik = s.mge.x.ik

/-- R192: when OPC holds `E(KI, OP) ⊕ OP`, GEN.U's SRES and KC equal GEN's; the host duty is the premise (R236). -/
def Obligations.GenUWithTheRightOpcEqualsGen : Prop :=
  ∀ s t g : State, s.mge.opcDuty → exec .genU s = .next t → t.mge.err = false → exec .gen s = .next g →
    g.mge.err = false →
    t.mge.x.sres = g.mge.x.sres ∧ t.mge.x.kc = g.mge.x.kc ∧ t.mge.x.opc = g.mge.x.opc

/-! ### Byte sequences and the cipher (00_scope.md R8 to R11, 41_aes128.md) -/

/-- R8: XOR is bytewise, and `a ⊕ (a ⊕ b) = b`. -/
def Obligations.XorIsBytewiseAndSelfInverse : Prop :=
  (∀ (n : Nat) (a b : Bytes n) (i : Fin n), (xorB a b).get i = a.get i ^^^ b.get i) ∧
  ∀ (n : Nat) (a b : Bytes n), xorB a (xorB a b) = b

/-- R9: `rotb` is its byte formula and, for every `k` in 0..15, the left rotation of the big-endian value by `8k` bits (R11);
so `rotb(u, 4)` and `rotb(u, 8)` are the rotations by 32 and 64 bits (R164). R10: `flip` XORs the last byte and keeps the
others. -/
def Obligations.RotationIsTowardTheMostSignificantEnd : Prop :=
  (∀ (v : Block) (k : Nat) (j : Fin 16), (rotb v k).get j = v.get ⟨(j.val + k) % 16, Nat.mod_lt _ (by decide)⟩) ∧
  (∀ (v : Block) (k : Nat), k < 16 →
    intOf (rotb v k) = intOf v % 2 ^ (128 - 8 * k) * 2 ^ (8 * k) + intOf v / 2 ^ (128 - 8 * k)) ∧
  (∀ v : Block, intOf (rotb v 4) = intOf v % 2 ^ 96 * 2 ^ 32 + intOf v / 2 ^ 96) ∧
  (∀ v : Block, intOf (rotb v 8) = intOf v % 2 ^ 64 * 2 ^ 64 + intOf v / 2 ^ 64) ∧
  ∀ (v : Block) (c : Byte), (flip v c).get 15 = v.get 15 ^^^ c ∧ ∀ j : Fin 16, j ≠ 15 → (flip v c).get j = v.get j

/-- R123: `SubBytes` applies `S` to each state byte, and the table of `S` is the formula's. -/
def Obligations.SboxTableIsTheFormula : Prop :=
  (∀ (st : AesState) (r c : Fin 4), entry (subBytes st) r c = sbox (entry st r c)) ∧
  ∀ a : Byte, sbox a = sboxFormula a

/-- R122: `xtime(a)` is `a • 0x02`, and `a • 0x03` is `xtime(a) xor a`; `inv` gives the inverse. -/
def Obligations.FieldOperationsAgree : Prop :=
  (∀ a : Byte, gfMul a 0x02#8 = xtime a) ∧ (∀ a : Byte, gfMul a 0x03#8 = xtime a ^^^ a) ∧
  (∀ a : Byte, a ≠ 0x00#8 → gfMul a (gfInv a) = 0x01#8) ∧ gfInv 0x00#8 = 0x00#8

/-- The cipher's state array and its rounds. R121: block byte `r + 4c` is `st[r][c]`, and reading a block in and out gives it
back. R124, R125, R126: what `ShiftRows`, `MixColumns` and `AddRoundKey` put at each place (`•` is R122's multiplication).
R120: `E` is the first key added, nine whole rounds, and a tenth without `MixColumns`. -/
def Obligations.CipherRunsItsRoundsOnTheStateArray : Prop :=
  (∀ (b : Block) (r c : Fin 4), entry (toAesState b) r c = b.get ⟨r.val + 4 * c.val, by omega⟩) ∧
  (∀ (st : AesState) (r c : Fin 4), (fromAesState st).get ⟨r.val + 4 * c.val, by omega⟩ = entry st r c) ∧
  (∀ b : Block, fromAesState (toAesState b) = b) ∧
  (∀ (st : AesState) (r c : Fin 4),
    entry (shiftRows st) r c = entry st r ⟨(c.val + r.val) % 4, Nat.mod_lt _ (by decide)⟩) ∧
  (∀ (st : AesState) (c : Fin 4),
    let a := fun r => entry st r c
    entry (mixColumns st) 0 c = gfMul 0x02#8 (a 0) ^^^ gfMul 0x03#8 (a 1) ^^^ a 2 ^^^ a 3 ∧
    entry (mixColumns st) 1 c = a 0 ^^^ gfMul 0x02#8 (a 1) ^^^ gfMul 0x03#8 (a 2) ^^^ a 3 ∧
    entry (mixColumns st) 2 c = a 0 ^^^ a 1 ^^^ gfMul 0x02#8 (a 2) ^^^ gfMul 0x03#8 (a 3) ∧
    entry (mixColumns st) 3 c = gfMul 0x03#8 (a 0) ^^^ a 1 ^^^ a 2 ^^^ gfMul 0x02#8 (a 3)) ∧
  (∀ (st : AesState) (w : List KeyWord) (rd : Nat) (r c : Fin 4),
    entry (addRoundKey st w rd) r c = entry st r c ^^^ (w.getD (4 * rd + c.val) (zeros 4)).get r) ∧
  ∀ key block : Block, ∃ st : Nat → AesState,
    st 0 = addRoundKey (toAesState block) (keyExpansion key) 0 ∧
    (∀ n, n < 9 →
      st (n + 1) = addRoundKey (mixColumns (shiftRows (subBytes (st n)))) (keyExpansion key) (n + 1)) ∧
    E key block = fromAesState (addRoundKey (shiftRows (subBytes (st 9))) (keyExpansion key) 10)

/-- R127: the key schedule has 44 words, the first four are the key's, and each later one is the word four before it XOR the
word before it, that one rotated, substituted and XORed with Rcon at every fourth. -/
def Obligations.KeyScheduleFollowsTheRecurrence : Prop :=
  ∀ key : Block, (keyExpansion key).length = 44 ∧
    (∀ (i j : Fin 4), ((keyExpansion key).getD i.val (zeros 4)).get j = key.get ⟨4 * i.val + j.val, by omega⟩) ∧
    ∀ i : Nat, 4 ≤ i → i < 44 →
      let w := fun n => (keyExpansion key).getD n (zeros 4)
      w i = xorB (w (i - 4))
        (if i % 4 = 0 then
          #v[sbox (w (i - 1))[1] ^^^ rcon (i / 4), sbox (w (i - 1))[2], sbox (w (i - 1))[3], sbox (w (i - 1))[0]]
        else w (i - 1))

/-- R128: the round constants. -/
def Obligations.RoundConstantsAreTheTable : Prop :=
  (List.range 10).map (fun j => rcon (j + 1)) =
    [0x01#8, 0x02#8, 0x04#8, 0x08#8, 0x10#8, 0x20#8, 0x40#8, 0x80#8, 0x1B#8, 0x36#8] ∧
  ∀ j : Nat, 1 ≤ j → rcon (j + 1) = xtime (rcon j)

/-! ### The host program (30_encoding.md R87, R88) -/

/-- R87: what each basic statement does: `wr` and `rd` one access; `poll` one read, going on when it matches; `jnz` and `jmp`
no transaction. One access is one step (R208); that `poll` makes one read a step, staying at its line until one matches, and
that `jnz` and `jmp` take a step of the host's own, is the model's choice (log entry 3), and so is that a jump to a label no
line carries stops the host (log entry 6). -/
def Obligations.HostStatementsFollowTheTable : Prop :=
  (∀ (s : State) (a v : Byte), ∃ t, s.hostStmt (.wr a v) = .next t ∧ t.mge = s.mge.memWrite a v ∧
    t.host.trace = .w a v :: s.host.trace ∧ t.host.pos = s.host.pos + 1) ∧
  (∀ (s : State) (a : Byte) (h : HVar), ∃ t, s.hostStmt (.rd a h) = .next t ∧ t.mge = s.mge ∧
    t.host.get h = s.mge.memRead a ∧ t.host.trace = .r a (s.mge.memRead a) :: s.host.trace ∧
    t.host.pos = s.host.pos + 1) ∧
  (∀ (s : State) (a m v : Byte), ∃ t, s.hostStmt (.poll a m v) = .next t ∧ t.mge = s.mge ∧
    t.host.trace = .r a (s.mge.memRead a) :: s.host.trace ∧
    t.host.pos = if s.mge.memRead a &&& m = v then s.host.pos + 1 else s.host.pos) ∧
  (∀ (s : State) (h : HVar) (m : Byte) (l : String), s.host.get h &&& m = 0#8 →
    ∃ t, s.hostStmt (.jnz h m l) = .next t ∧ t.mge = s.mge ∧ t.host.trace = s.host.trace ∧
      t.host.pos = s.host.pos + 1) ∧
  (∀ (s : State) (h : HVar) (m : Byte) (l : String), s.host.get h &&& m ≠ 0#8 →
    s.hostStmt (.jnz h m l) = s.hostStmt (.jmp l)) ∧
  (∀ (s : State) (l : String) (p : Nat), s.host.target l = some p →
    ∃ t, s.hostStmt (.jmp l) = .next t ∧ t.mge = s.mge ∧ t.host.trace = s.host.trace ∧ t.host.pos = p) ∧
  ∀ (s : State) (l : String), s.host.target l = none → s.hostStmt (.jmp l) = .fault (.undefinedLabel l)

/-- R88: the expansions of the pseudo-instructions. -/
def Obligations.PseudoInstructionsExpandByTheTable : Prop :=
  (∀ i : Instr, expand (.cmd i) = some [.wr 0xF0#8 (encode i)]) ∧
  expand .wait = some [.poll 0xF1#8 0x01#8 0x00#8] ∧
  (∀ (sl : Slot) (hex : List Byte), hex.length ≤ 255 → ∃ ws, expand (.load sl hex) = some ws ∧
    ws.length = min hex.length sl.cap + 1 ∧
    (∀ i : Nat, i < min hex.length sl.cap → ws[i]? = (hex[i]?).map fun b => .wr (dataAddr sl i) b) ∧
    ws[min hex.length sl.cap]? = some (.wr (lenAddr sl) (BitVec.ofNat 8 hex.length))) ∧
  (∀ (sl : Slot) (hex : List Byte), 255 < hex.length → expand (.load sl hex) = none) ∧
  (∀ (sl : Slot) (n : Byte), expand (.setlen sl n) = some [.wr (lenAddr sl) n]) ∧
  (∀ sl : Slot, ∃ rs, expand (.read sl) = some rs ∧ rs.length = sl.cap ∧
    ∀ i : Nat, i < sl.cap → rs[i]? = some (.rd (dataAddr sl i) (.slotByte sl i))) ∧
  expand .clrovr = some [.wr 0xF1#8 0x08#8] ∧
  ∀ i : Instr, expand (.run i) = some [.wr 0xF0#8 (encode i), .poll 0xF1#8 0x01#8 0x00#8]
end

