-- ==== Sys2Proof/Laws/Bytes.lean ====
section
/-! SUPPORT. Small facts of the byte sequences and of AES: entries, the integer reading, the key words. -/

namespace Sys2Proof.Machine

/-- The entries of a state array made from a function (R121). -/
@[simp] theorem entry_mkState (f : Fin 4 → Fin 4 → Byte) (r c : Fin 4) : entry (mkState f) r c = f r c := by
  simp [entry, mkState, Vector.get_eq_getElem]

@[simp] theorem xorB_get {n : Nat} (a b : Bytes n) (i : Fin n) : (xorB a b).get i = a.get i ^^^ b.get i := by
  simp [xorB, Vector.get_eq_getElem]

@[simp] theorem rotb_get (v : Block) (k : Nat) (j : Fin 16) :
    (rotb v k).get j = v.get ⟨(j.val + k) % 16, Nat.mod_lt _ (by decide)⟩ := by
  simp [rotb, Vector.get_eq_getElem]

/-- Every byte of zeros is 0x00. -/
@[simp] theorem zeros_get (n : Nat) (i : Fin n) : (zeros n).get i = 0x00#8 := by
  simp [zeros, Vector.get]

/-- The bytes of a block, listed. -/
theorem block_toList (v : Block) : v.toList =
    [v[0], v[1], v[2], v[3], v[4], v[5], v[6], v[7], v[8], v[9], v[10], v[11], v[12], v[13], v[14], v[15]] := by
  apply List.ext_getElem
  · simp
  · intro i h1 h2
    simp at h1
    have : i = 0 ∨ i = 1 ∨ i = 2 ∨ i = 3 ∨ i = 4 ∨ i = 5 ∨ i = 6 ∨ i = 7 ∨ i = 8 ∨ i = 9 ∨ i = 10 ∨ i = 11 ∨ i = 12 ∨
      i = 13 ∨ i = 14 ∨ i = 15 := by omega
    rcases this with rfl | rfl | rfl | rfl | rfl | rfl | rfl | rfl | rfl | rfl | rfl | rfl | rfl | rfl | rfl | rfl <;> simp

/-- R10 at the last byte. -/
@[simp] theorem flip_get_last (v : Block) (c : Byte) : (flip v c).get 15 = v.get 15 ^^^ c := by
  simp [flip, Vector.get_eq_getElem]

/-- R10 at every other byte. -/
theorem flip_get_other (v : Block) (c : Byte) (j : Fin 16) (h : j ≠ 15) : (flip v c).get j = v.get j := by
  have : (15 : Nat) ≠ j.val := fun e => h (Fin.ext e.symm)
  simp [flip, Vector.get_eq_getElem, this]

/-! ### The integer reading, R11 -/

/-- The integer reading of a list of bytes. -/
def listInt (l : List Byte) : Nat := l.foldl (fun acc b => acc * 256 + b.toNat) 0

theorem intOf_eq {n : Nat} (v : Bytes n) : intOf v = listInt v.toList := rfl

theorem listInt_from (l : List Byte) (acc : Nat) :
    l.foldl (fun acc b => acc * 256 + b.toNat) acc = acc * 256 ^ l.length + listInt l := by
  induction l generalizing acc with
  | nil => simp [listInt]
  | cons b l ih =>
    simp only [listInt, List.foldl_cons, List.length_cons]
    rw [ih, ih (0 * 256 + b.toNat)]
    ring

/-- The bytes of `a` stand above those of `b`. -/
theorem listInt_append (a b : List Byte) : listInt (a ++ b) = listInt a * 256 ^ b.length + listInt b := by
  rw [listInt, List.foldl_append, listInt_from]
  rfl

theorem listInt_lt (l : List Byte) : listInt l < 256 ^ l.length := by
  induction l with
  | nil => simp [listInt]
  | cons b l ih =>
    have hb := b.isLt
    have hs := listInt_append [b] l
    simp only [List.singleton_append, listInt, List.foldl_cons, List.foldl_nil] at hs ih ⊢
    rw [hs, List.length_cons, Nat.pow_succ]
    nlinarith [Nat.pos_of_ne_zero (pow_ne_zero l.length (by norm_num : (256 : Nat) ≠ 0))]

/-- R9 on the bytes as a list: the first `k` go behind the others. -/
theorem rotb_toList (v : Block) (k : Nat) (h : k < 16) : (rotb v k).toList = v.toList.drop k ++ v.toList.take k := by
  have hl : v.toList.length = 16 := by simp
  apply List.ext_getElem
  · simp; omega
  · intro i h1 h2
    have hi : i < 16 := by simpa using h1
    rw [List.getElem_append]
    split
    next hd =>
      simp at hd
      simp only [rotb, Vector.getElem_toList, Vector.getElem_ofFn, List.getElem_drop]
      congr 1
      omega
    next hd =>
      simp at hd
      simp only [rotb, Vector.getElem_toList, Vector.getElem_ofFn, List.getElem_take, List.length_drop, hl]
      congr 1
      omega

/-! ### The cipher, R122 and R127 -/

/-- R122: `0x02 • a` is `xtime(a)`. -/
theorem gfMul_two (a : Byte) : gfMul 0x02#8 a = xtime a := by
  revert a; decide +kernel

/-- R122: `0x03 • a` is `xtime(a) xor a`. -/
theorem gfMul_three (a : Byte) : gfMul 0x03#8 a = times3 a := by
  revert a; decide +kernel

/-- The first `4 + n` key words are `4 + n` (R127). -/
theorem keyWordsRev_length (key : Block) (n : Nat) : (keyWordsRev key n).length = n + 4 := by
  induction n with
  | zero => rfl
  | succ n ih => simp [keyWordsRev, ih]

/-- A key word once made stays (R127): word `i` of the first `m + 4` is word `i` of the first `n + 4`. -/
theorem keyWordsRev_getD (key : Block) (n i : Nat) (h : i < n + 4) (m : Nat) (hm : n ≤ m) :
    (keyWordsRev key m).getD (m + 3 - i) (zeros 4) = (keyWordsRev key n).getD (n + 3 - i) (zeros 4) := by
  induction m, hm using Nat.le_induction with
  | base => rfl
  | succ m hm ih =>
    rw [← ih]
    show (nextKeyWord (keyWordsRev key m) (m + 4) :: keyWordsRev key m).getD _ _ = _
    rw [show m + 1 + 3 - i = (m + 3 - i) + 1 by omega]
    rfl

/-- Word `i` of the schedule, counted from the newest. -/
theorem keyExpansion_getD (key : Block) (i : Nat) (h : i < 44) :
    (keyExpansion key).getD i (zeros 4) = (keyWordsRev key 40).getD (40 + 3 - i) (zeros 4) := by
  have hl := keyWordsRev_length key 40
  simp only [keyExpansion, List.getD]
  rw [List.getElem?_reverse (by omega), hl]

end Sys2Proof.Machine
end

