-- ==== Sys2Proof/Laws/State.lean ====
section
/-! SUPPORT. What each named update of the state does to each field, once, so that no proof unfolds one. -/

namespace Sys2Proof.Machine

section Registers
variable (m : Mge) (s : Slot) (i : Fin s.cap) (v n : Byte) (w : SlotWrite)

@[simp] theorem Mge.setByte_x : (m.setByte s i v).x = m.x.set s ((m.x.get s).set i.val v i.isLt) := rfl
@[simp] theorem Mge.setByte_len : (m.setByte s i v).len = m.len := rfl
@[simp] theorem Mge.setByte_done : (m.setByte s i v).done = m.done := rfl
@[simp] theorem Mge.setByte_err : (m.setByte s i v).err = m.err := rfl
@[simp] theorem Mge.setByte_ovr : (m.setByte s i v).ovr = m.ovr := rfl
@[simp] theorem Mge.setByte_errcode : (m.setByte s i v).errcode = m.errcode := rfl
@[simp] theorem Mge.setByte_ncalls : (m.setByte s i v).ncalls = m.ncalls := rfl
@[simp] theorem Mge.setByte_pend : (m.setByte s i v).pend = m.pend := rfl

@[simp] theorem Mge.setLen_x : (m.setLen s n).x = m.x := rfl
@[simp] theorem Mge.setLen_len : (m.setLen s n).len = m.len.set s n := rfl
@[simp] theorem Mge.setLen_done : (m.setLen s n).done = m.done := rfl
@[simp] theorem Mge.setLen_err : (m.setLen s n).err = m.err := rfl
@[simp] theorem Mge.setLen_ovr : (m.setLen s n).ovr = m.ovr := rfl
@[simp] theorem Mge.setLen_errcode : (m.setLen s n).errcode = m.errcode := rfl
@[simp] theorem Mge.setLen_ncalls : (m.setLen s n).ncalls = m.ncalls := rfl
@[simp] theorem Mge.setLen_pend : (m.setLen s n).pend = m.pend := rfl

@[simp] theorem Mge.writeSlot_x : (m.writeSlot w).x = m.x.set w.slot w.data := rfl
@[simp] theorem Mge.writeSlot_len :
    (m.writeSlot w).len = m.len.set w.slot (BitVec.ofNat 8 w.slot.cap) := rfl
@[simp] theorem Mge.writeSlot_done : (m.writeSlot w).done = m.done := rfl
@[simp] theorem Mge.writeSlot_err : (m.writeSlot w).err = m.err := rfl
@[simp] theorem Mge.writeSlot_ovr : (m.writeSlot w).ovr = m.ovr := rfl
@[simp] theorem Mge.writeSlot_errcode : (m.writeSlot w).errcode = m.errcode := rfl
@[simp] theorem Mge.writeSlot_ncalls : (m.writeSlot w).ncalls = m.ncalls := rfl
@[simp] theorem Mge.writeSlot_pend : (m.writeSlot w).pend = m.pend := rfl

end Registers

section Overrun
variable (m : Mge)

@[simp] theorem Mge.overrun_x : m.overrun.x = m.x := rfl
@[simp] theorem Mge.overrun_len : m.overrun.len = m.len := rfl
@[simp] theorem Mge.overrun_done : m.overrun.done = m.done := rfl
@[simp] theorem Mge.overrun_err : m.overrun.err = m.err := rfl
@[simp] theorem Mge.overrun_ovr : m.overrun.ovr = true := rfl
@[simp] theorem Mge.overrun_errcode : m.overrun.errcode = m.errcode := rfl
@[simp] theorem Mge.overrun_ncalls : m.overrun.ncalls = m.ncalls := rfl
@[simp] theorem Mge.overrun_pend : m.overrun.pend = m.pend := rfl

@[simp] theorem Mge.clearOvr_x : m.clearOvr.x = m.x := rfl
@[simp] theorem Mge.clearOvr_len : m.clearOvr.len = m.len := rfl
@[simp] theorem Mge.clearOvr_done : m.clearOvr.done = m.done := rfl
@[simp] theorem Mge.clearOvr_err : m.clearOvr.err = m.err := rfl
@[simp] theorem Mge.clearOvr_ovr : m.clearOvr.ovr = false := rfl
@[simp] theorem Mge.clearOvr_errcode : m.clearOvr.errcode = m.errcode := rfl
@[simp] theorem Mge.clearOvr_ncalls : m.clearOvr.ncalls = m.ncalls := rfl
@[simp] theorem Mge.clearOvr_pend : m.clearOvr.pend = m.pend := rfl

end Overrun

section Completion
variable (m : Mge) (c : Byte) (e : Err) (k : Nat)

@[simp] theorem Mge.accept_x : (m.accept c).x = m.x := rfl
@[simp] theorem Mge.accept_len : (m.accept c).len = m.len := rfl
@[simp] theorem Mge.accept_done : (m.accept c).done = false := rfl
@[simp] theorem Mge.accept_err : (m.accept c).err = false := rfl
@[simp] theorem Mge.accept_ovr : (m.accept c).ovr = m.ovr := rfl
@[simp] theorem Mge.accept_errcode : (m.accept c).errcode = 0x00#8 := rfl
@[simp] theorem Mge.accept_ncalls : (m.accept c).ncalls = 0#8 := rfl
@[simp] theorem Mge.accept_pend : (m.accept c).pend = some c := rfl

@[simp] theorem Mge.endOk_x : (m.endOk k).x = m.x := rfl
@[simp] theorem Mge.endOk_len : (m.endOk k).len = m.len := rfl
@[simp] theorem Mge.endOk_done : (m.endOk k).done = true := rfl
@[simp] theorem Mge.endOk_err : (m.endOk k).err = false := rfl
@[simp] theorem Mge.endOk_ovr : (m.endOk k).ovr = m.ovr := rfl
@[simp] theorem Mge.endOk_errcode : (m.endOk k).errcode = 0x00#8 := rfl
@[simp] theorem Mge.endOk_ncalls : (m.endOk k).ncalls = BitVec.ofNat 8 k := rfl
@[simp] theorem Mge.endOk_pend : (m.endOk k).pend = none := rfl

@[simp] theorem Mge.endErr_x : (m.endErr e k).x = m.x := rfl
@[simp] theorem Mge.endErr_len : (m.endErr e k).len = m.len := rfl
@[simp] theorem Mge.endErr_done : (m.endErr e k).done = true := rfl
@[simp] theorem Mge.endErr_err : (m.endErr e k).err = true := rfl
@[simp] theorem Mge.endErr_ovr : (m.endErr e k).ovr = m.ovr := rfl
@[simp] theorem Mge.endErr_errcode : (m.endErr e k).errcode = e.code := rfl
@[simp] theorem Mge.endErr_ncalls : (m.endErr e k).ncalls = BitVec.ofNat 8 k := rfl
@[simp] theorem Mge.endErr_pend : (m.endErr e k).pend = none := rfl

@[simp] theorem Mge.complete_ok (ws : List SlotWrite) : m.complete (.ok ws k) = (m.commit ws).endOk k := rfl
@[simp] theorem Mge.complete_err : m.complete (.err e k) = m.endErr e k := rfl
@[simp] theorem Mge.commit_nil : m.commit [] = m := rfl
@[simp] theorem Mge.commit_cons (w : SlotWrite) (ws : List SlotWrite) :
    m.commit (w :: ws) = (m.writeSlot w).commit ws := rfl

end Completion

section Whole
variable (s : State) (r : Run (List SlotWrite)) (o : Oracle) (k : Nat) (c : Byte)

@[simp] theorem Oracle.advance_mayFail : (o.advance k).mayFail = o.mayFail := rfl
@[simp] theorem Oracle.advance_draws : (o.advance k).draws = o.draws.drop k := rfl
@[simp] theorem Oracle.advance_drawn : (o.advance k).drawn = o.drawn + k := rfl

@[simp] theorem State.finish_mge : (s.finish r).mge = s.mge.complete r := rfl
@[simp] theorem State.finish_oracle : (s.finish r).oracle = s.oracle.advance r.calls := rfl
@[simp] theorem State.finish_host : (s.finish r).host = s.host := rfl
@[simp] theorem State.finish_agenda : (s.finish r).agenda = s.agenda := rfl

@[simp] theorem State.resetEvent_mge : s.resetEvent.mge = Mge.reset := rfl
@[simp] theorem State.resetEvent_oracle : s.resetEvent.oracle = s.oracle := rfl
@[simp] theorem State.resetEvent_host : s.resetEvent.host = s.host := rfl
@[simp] theorem State.resetEvent_agenda : s.resetEvent.agenda = s.agenda := rfl

@[simp] theorem State.pop_mge : s.pop.mge = s.mge := rfl
@[simp] theorem State.pop_oracle : s.pop.oracle = s.oracle := rfl
@[simp] theorem State.pop_host : s.pop.host = s.host := rfl
@[simp] theorem State.pop_agenda : s.pop.agenda = s.agenda.tail := rfl

@[simp] theorem State.acceptNext_mge : (s.acceptNext c).mge = s.mge.accept c := rfl
@[simp] theorem State.acceptNext_oracle : (s.acceptNext c).oracle = s.oracle := rfl
@[simp] theorem State.acceptNext_host : (s.acceptNext c).host = s.host := rfl
@[simp] theorem State.acceptNext_agenda : (s.acceptNext c).agenda = .engine :: s.agenda := rfl

@[simp] theorem State.hostWrite_mge (a v : Byte) : (s.hostWrite a v).mge = s.mge.memWrite a v := rfl
@[simp] theorem State.hostWrite_oracle (a v : Byte) : (s.hostWrite a v).oracle = s.oracle := rfl
@[simp] theorem State.hostWrite_agenda (a v : Byte) : (s.hostWrite a v).agenda = s.agenda := rfl
@[simp] theorem State.hostWrite_prog (a v : Byte) : (s.hostWrite a v).host.prog = s.host.prog := rfl
@[simp] theorem State.hostWrite_trace (a v : Byte) :
    (s.hostWrite a v).host.trace = .w a v :: s.host.trace := rfl

@[simp] theorem State.hostRead_mge (a : Byte) (f : HostAgent → Byte → HostAgent) :
    (s.hostRead a f).mge = s.mge := rfl
@[simp] theorem State.hostRead_oracle (a : Byte) (f : HostAgent → Byte → HostAgent) :
    (s.hostRead a f).oracle = s.oracle := rfl
@[simp] theorem State.hostRead_agenda (a : Byte) (f : HostAgent → Byte → HostAgent) :
    (s.hostRead a f).agenda = s.agenda := rfl
@[simp] theorem State.hostRead_host (a : Byte) (f : HostAgent → Byte → HostAgent) :
    (s.hostRead a f).host = f (s.host.record (.r a (s.mge.memRead a))) (s.mge.memRead a) := rfl

variable (h : HostAgent) (v : HVar) (b : Byte) (t : BusOp)

@[simp] theorem HostAgent.advance_prog : h.advance.prog = h.prog := rfl
@[simp] theorem HostAgent.advance_pos : h.advance.pos = h.pos + 1 := rfl
@[simp] theorem HostAgent.advance_vars : h.advance.vars = h.vars := rfl
@[simp] theorem HostAgent.advance_trace : h.advance.trace = h.trace := rfl
@[simp] theorem HostAgent.record_prog : (h.record t).prog = h.prog := rfl
@[simp] theorem HostAgent.record_pos : (h.record t).pos = h.pos := rfl
@[simp] theorem HostAgent.record_vars : (h.record t).vars = h.vars := rfl
@[simp] theorem HostAgent.record_trace : (h.record t).trace = t :: h.trace := rfl
@[simp] theorem HostAgent.set_prog : (h.set v b).prog = h.prog := rfl
@[simp] theorem HostAgent.set_pos : (h.set v b).pos = h.pos := rfl
@[simp] theorem HostAgent.set_trace : (h.set v b).trace = h.trace := rfl

/-- A variable just read holds the byte read. -/
@[simp] theorem HostAgent.get_set : (h.set v b).get v = b := by
  simp [HostAgent.get, HostAgent.set]

end Whole

section Files
variable (x : Slots) (l : Lens) (s s' : Slot)

/-- A slot just written reads as written. -/
@[simp] theorem Slots.get_set_same (v : Bytes s.cap) : (x.set s v).get s = v := by
  cases s <;> rfl

/-- A slot write leaves every other slot alone. -/
theorem Slots.get_set_other (v : Bytes s.cap) (h : s' ≠ s) : (x.set s v).get s' = x.get s' := by
  cases s <;> cases s' <;> first | rfl | exact absurd rfl h

@[simp] theorem Lens.get_set_same (n : Byte) : (l.set s n).get s = n := by
  cases s <;> rfl

theorem Lens.get_set_other (n : Byte) (h : s' ≠ s) : (l.set s n).get s' = l.get s' := by
  cases s <;> cases s' <;> first | rfl | exact absurd rfl h

end Files

end Sys2Proof.Machine
end

