-- ==== Sys2Proof/Laws/Commands.lean ====
section
/-! SUPPORT. What each command's run can give: once for the cipher unit, for `M`, and for every command. -/

namespace Sys2Proof.Machine

/-! ### The run of a command -/

@[simp] theorem Run.bind_ok {α β : Type} (a : α) (n : Nat) (f : α → Nat → Run β) :
    (Run.ok a n).bind f = f a n := rfl

@[simp] theorem Run.bind_err {α β : Type} (e : Err) (n : Nat) (f : α → Nat → Run β) :
    (Run.err e n : Run α).bind f = .err e n := rfl

@[simp] theorem Run.calls_ok {α : Type} (a : α) (n : Nat) : (Run.ok a n).calls = n := rfl

@[simp] theorem Run.calls_err {α : Type} (e : Err) (n : Nat) : (Run.err e n : Run α).calls = n := rfl

/-! ### One invocation, R101 -/

theorem cipher_ok (o : Oracle) (k b : Block) (n : Nat) (h : o.drawAt n = .ok) :
    cipher o k b n = .ok (E k b) (n + 1) := by
  simp [cipher, h]

theorem cipher_fail (o : Oracle) (k b : Block) (n : Nat) (h : o.drawAt n = .fail) :
    cipher o k b n = .err .cipherFailure (n + 1) := by
  simp [cipher, h]

/-- Everything an invocation can give. -/
theorem cipher_cases (o : Oracle) (k b : Block) (n : Nat) :
    (o.drawAt n = .ok ∧ cipher o k b n = .ok (E k b) (n + 1)) ∨
    (o.drawAt n = .fail ∧ cipher o k b n = .err .cipherFailure (n + 1)) := by
  cases h : o.drawAt n
  · exact .inl ⟨rfl, cipher_ok o k b n h⟩
  · exact .inr ⟨rfl, cipher_fail o k b n h⟩

/-- When no invocation may fail, every draw is ok (R208). -/
theorem drawAt_of_not_mayFail (o : Oracle) (h : o.mayFail = false) (k : Nat) : o.drawAt k = .ok := by
  simp [Oracle.drawAt, h]

theorem allOk_of_not_mayFail (o : Oracle) (h : o.mayFail = false) (n : Nat) : o.allOk n :=
  fun k _ => drawAt_of_not_mayFail o h k

/-- The draws after `n` have been used are the draws from the `n`-th on (R208). -/
theorem drawAt_advance (o : Oracle) (n k : Nat) : (o.advance n).drawAt k = o.drawAt (n + k) := by
  simp [Oracle.drawAt, Oracle.advance, List.getD, List.getElem?_drop, Nat.add_assoc]

/-! ### Runs from invocation `a` on: what the draws make of them -/

/-- `r` is a run that makes `n` invocations after the first `a`: it gives `v` when all their draws are ok, and otherwise
CIPHER_FAILURE with the number of the first that fails (R101). -/
def Invokes {α : Type} (o : Oracle) (a n : Nat) (v : α) (r : Run α) : Prop :=
  ((∀ k, k < n → o.drawAt (a + k) = .ok) ∧ r = .ok v (a + n)) ∨
  (∃ k, k < n ∧ (∀ j, j < k → o.drawAt (a + j) = .ok) ∧ o.drawAt (a + k) = .fail ∧
    r = .err .cipherFailure (a + k + 1))

theorem invokes_cipher (o : Oracle) (k b : Block) (a : Nat) : Invokes o a 1 (E k b) (cipher o k b a) := by
  rcases cipher_cases o k b a with ⟨h, e⟩ | ⟨h, e⟩
  · exact .inl ⟨fun j hj => by obtain rfl : j = 0 := by omega
                               exact h, e⟩
  · exact .inr ⟨0, by omega, fun j hj => absurd hj (by omega), h, e⟩

/-- A result with no more invocations. -/
theorem invokes_pure {α : Type} (o : Oracle) (a : Nat) (v : α) : Invokes o a 0 v (.ok v a) :=
  .inl ⟨fun k hk => absurd hk (by omega), rfl⟩

/-- Runs in sequence: the invocations add up, and the first failure ends both (R104). -/
theorem Invokes.bind {α β : Type} {o : Oracle} {a n n' : Nat} {v : α} {w : β} {r : Run α} {f : α → Nat → Run β}
    (h : Invokes o a n v r) (hf : Invokes o (a + n) n' w (f v (a + n))) : Invokes o a (n + n') w (r.bind f) := by
  rcases h with ⟨hok, rfl⟩ | ⟨k, hk, hbefore, hfail, rfl⟩
  · rcases hf with ⟨hok', e⟩ | ⟨k, hk, hbefore, hfail, e⟩
    · refine .inl ⟨fun j hj => ?_, ?_⟩
      · by_cases hjn : j < n
        · exact hok j hjn
        · have := hok' (j - n) (by omega)
          rwa [show a + n + (j - n) = a + j by omega] at this
      · rw [Run.bind_ok, e, Nat.add_assoc]
    · refine .inr ⟨n + k, by omega, fun j hj => ?_, ?_, ?_⟩
      · by_cases hjn : j < n
        · exact hok j hjn
        · have := hbefore (j - n) (by omega)
          rwa [show a + n + (j - n) = a + j by omega] at this
      · rwa [← Nat.add_assoc]
      · rw [Run.bind_ok, e, ← Nat.add_assoc]
  · exact .inr ⟨k, by omega, hbefore, hfail, rfl⟩

theorem invokes_deriveOpc (o : Oracle) (ki op : Block) (a : Nat) :
    Invokes o a 1 (opcOf ki op) (deriveOpc o ki op a) := by
  unfold deriveOpc
  exact (invokes_cipher o ki op a).bind (n' := 0) (w := opcOf ki op) (invokes_pure o _ _)

theorem invokes_milenage (o : Oracle) (k c r : Block) (a : Nat) :
    Invokes o a 4 (milenageOf k c r) (milenage o k c r a) := by
  unfold milenage
  refine (invokes_cipher o k (xorB r c) a).bind (n' := 3) (w := milenageOf k c r) ?_
  refine (invokes_cipher o k (flip (midOf k c r) 0x01#8) _).bind (n' := 2) (w := milenageOf k c r) ?_
  refine (invokes_cipher o k (flip (rotb (midOf k c r) 4) 0x02#8) _).bind (n' := 1) (w := milenageOf k c r) ?_
  exact (invokes_cipher o k (flip (rotb (midOf k c r) 8) 0x04#8) _).bind (n' := 0) (w := milenageOf k c r)
    (invokes_pure o _ _)

/-! ### Every command at once -/

/-- The run of a command, as exec's arms call it. -/
def runOf (i : Instr) (m : Mge) (o : Oracle) : Run (List SlotWrite) :=
  match i with
  | .enc => runEnc m o
  | .dopc => runDopc m o
  | .eval => runEval m o
  | .fres => runFres m
  | .fck => runFck m
  | .gen => runGen m o
  | .genU => runGenU m o

/-- A command is the completion step of its run (R207). -/
theorem exec_eq (i : Instr) (s : State) : exec i s = .next (s.finish (runOf i s.mge s.oracle)) := by
  cases i <;> rfl

/-- What a command that succeeds writes, as a function of its operands' data. -/
def writesOf (i : Instr) (x : Slots) : List SlotWrite :=
  match i with
  | .enc => [⟨.out, E x.ki x.blk⟩]
  | .dopc => [⟨.opc, opcOf x.ki x.op⟩]
  | .eval =>
    let v := milenageOf x.ki x.opc x.rand
    [⟨.res, v.res⟩, ⟨.ck, v.ck⟩, ⟨.ik, v.ik⟩]
  | .fres => [⟨.sres, foldRes x.res⟩]
  | .fck => [⟨.kc, foldCk x.ck x.ik⟩]
  | .gen => ⟨.opc, opcOf x.ki x.op⟩ :: stagedTriplet (milenageOf x.ki (opcOf x.ki x.op) x.rand)
  | .genU => stagedTriplet (milenageOf x.ki x.opc x.rand)

/-- A slot is not well-formed exactly when its `len` is not its capacity (R22). -/
theorem slotWF_eq_false (m : Mge) (s : Slot) : m.slotWF s = false ↔ m.len.get s ≠ BitVec.ofNat 8 s.cap := by
  simp [Mge.slotWF]

/-- The length checks come first (R203): a command with a length error gives it with no invocation. -/
theorem runOf_lengthError (i : Instr) (m : Mge) (o : Oracle) (e : Err) (h : lengthError i m.len = some e) :
    runOf i m o = .err e 0 := by
  cases i <;> simp only [lengthError] at h <;> repeat' split at h
  all_goals first
    | contradiction
    | (obtain rfl := Option.some.inj h
       simp_all [runOf, runEnc, runDopc, runEval, runFres, runFck, runGen, runGenU, Mge.slotsWF, Mge.slotWF, Lens.get,
         Slot.cap]
       try tauto)

/-- With every length right, a command makes its invocations and stages its results (R103 to R190). -/
theorem runOf_invokes (i : Instr) (m : Mge) (o : Oracle) (h : lengthError i m.len = none) :
    Invokes o 0 (invocationsOf i) (writesOf i m.x) (runOf i m o) := by
  cases i <;> simp only [lengthError] at h <;> repeat' split at h
  all_goals first
    | contradiction
    | skip
  all_goals simp_all [not_or, runOf, runEnc, runDopc, runEval, runFres, runFck, runGen, runGenU,
      Mge.slotsWF, Mge.slotWF, Lens.get, List.all_cons, List.all_nil, Slot.cap]
  · exact (invokes_cipher o _ _ 0).bind (n' := 0) (w := writesOf .enc m.x) (invokes_pure o _ _)
  · exact (invokes_deriveOpc o _ _ 0).bind (n' := 0) (w := writesOf .dopc m.x) (invokes_pure o _ _)
  · exact (invokes_milenage o _ _ _ 0).bind (n' := 0) (w := writesOf .eval m.x) (invokes_pure o _ _)
  · exact invokes_pure o 0 _
  · exact invokes_pure o 0 _
  · refine (invokes_deriveOpc o _ _ 0).bind (n' := 4) (w := writesOf .gen m.x) ?_
    exact (invokes_milenage o _ _ _ _).bind (n' := 0) (w := writesOf .gen m.x) (invokes_pure o _ _)
  · exact (invokes_milenage o _ _ _ 0).bind (n' := 0) (w := writesOf .genU m.x) (invokes_pure o _ _)

/-- Everything a command can do: a length error, a failed invocation, or its writes. -/
theorem runOf_cases (i : Instr) (m : Mge) (o : Oracle) :
    (∃ e, lengthError i m.len = some e ∧ runOf i m o = .err e 0) ∨
    (lengthError i m.len = none ∧ ∃ k, k < invocationsOf i ∧ o.drawAt k = .fail ∧
      (∀ j, j < k → o.drawAt j = .ok) ∧ runOf i m o = .err .cipherFailure (k + 1)) ∨
    (lengthError i m.len = none ∧ o.allOk (invocationsOf i) ∧
      runOf i m o = .ok (writesOf i m.x) (invocationsOf i)) := by
  cases h : lengthError i m.len with
  | some e => exact .inl ⟨e, rfl, runOf_lengthError i m o e h⟩
  | none =>
    rcases runOf_invokes i m o h with ⟨hok, e⟩ | ⟨k, hk, hb, hf, e⟩
    · refine .inr (.inr ⟨rfl, fun k hk => ?_, ?_⟩)
      · simpa using hok k hk
      · simpa using e
    · refine .inr (.inl ⟨rfl, k, hk, by simpa using hf, fun j hj => by simpa using hb j hj, by simpa using e⟩)

/-- Every write of a command is to one of its result slots (R20). -/
theorem writesOf_slots (i : Instr) (x : Slots) : (writesOf i x).map (·.slot) = resultsOf i := by
  cases i <;> rfl

/-! ### Staged writes made visible, R202 -/

@[simp] theorem commit_done (m : Mge) (ws : List SlotWrite) : (m.commit ws).done = m.done := by
  induction ws generalizing m with
  | nil => rfl
  | cons w ws ih => rw [Mge.commit_cons, ih]; rfl

@[simp] theorem commit_ovr (m : Mge) (ws : List SlotWrite) : (m.commit ws).ovr = m.ovr := by
  induction ws generalizing m with
  | nil => rfl
  | cons w ws ih => rw [Mge.commit_cons, ih]; rfl

@[simp] theorem commit_pend (m : Mge) (ws : List SlotWrite) : (m.commit ws).pend = m.pend := by
  induction ws generalizing m with
  | nil => rfl
  | cons w ws ih => rw [Mge.commit_cons, ih]; rfl

/-- A commit leaves every slot it does not write alone. -/
theorem commit_other (m : Mge) (ws : List SlotWrite) (s : Slot) (h : s ∉ ws.map (·.slot)) :
    (m.commit ws).x.get s = m.x.get s ∧ (m.commit ws).len.get s = m.len.get s := by
  induction ws generalizing m with
  | nil => exact ⟨rfl, rfl⟩
  | cons w ws ih =>
    simp only [List.map_cons, List.mem_cons, not_or] at h
    obtain ⟨h1, h2⟩ := ih (m.writeSlot w) h.2
    rw [Mge.commit_cons, h1, h2]
    exact ⟨Slots.get_set_other _ _ _ _ h.1, Lens.get_set_other _ _ _ _ h.1⟩

/-- A commit declares every slot it writes at its capacity (R21). -/
theorem commit_len (m : Mge) (ws : List SlotWrite) (s : Slot) (h : s ∈ ws.map (·.slot)) :
    (m.commit ws).len.get s = BitVec.ofNat 8 s.cap := by
  induction ws generalizing m with
  | nil => cases h
  | cons w ws ih =>
    by_cases hs : s ∈ ws.map (·.slot)
    · rw [Mge.commit_cons, ih _ hs]
    · rw [Mge.commit_cons, (commit_other _ ws s hs).2]
      simp only [List.map_cons, List.mem_cons] at h
      obtain rfl := h.resolve_right hs
      simp

/-- A slot a commit writes holds what the last write of it gave, whatever it held before. -/
theorem commit_get_congr (ws : List SlotWrite) (m m' : Mge) (s : Slot) (h : s ∈ ws.map (·.slot)) :
    (m.commit ws).x.get s = (m'.commit ws).x.get s := by
  induction ws generalizing m m' with
  | nil => cases h
  | cons w ws ih =>
    simp only [Mge.commit_cons]
    by_cases hs : s ∈ ws.map (·.slot)
    · exact ih _ _ hs
    · rw [(commit_other _ ws s hs).1, (commit_other _ ws s hs).1]
      simp only [List.map_cons, List.mem_cons] at h
      obtain rfl := h.resolve_right hs
      simp

/-! ### exec, once for every command -/

/-- The state exec answers. -/
theorem eq_finish_of_exec {i : Instr} {s t : State} (h : exec i s = .next t) :
    t = s.finish (runOf i s.mge s.oracle) := by
  rw [exec_eq] at h
  cases h
  rfl

/-- With the lengths right and the draws ok, a command's run is its writes. -/
theorem runOf_ok (i : Instr) (m : Mge) (o : Oracle) (hl : lengthError i m.len = none) (ho : o.allOk (invocationsOf i)) :
    runOf i m o = .ok (writesOf i m.x) (invocationsOf i) := by
  rcases runOf_cases i m o with ⟨e, h', -⟩ | ⟨-, k, hk, hf, -, -⟩ | ⟨-, -, h⟩
  · simp [hl] at h'
  · simp [ho k hk] at hf
  · exact h

/-- A command that succeeded had its lengths right and its draws ok, and committed its writes. -/
theorem mge_of_exec_ok {i : Instr} {s t : State} (h : exec i s = .next t) (he : t.mge.err = false) :
    lengthError i s.mge.len = none ∧ s.oracle.allOk (invocationsOf i) ∧
    t.mge = (s.mge.commit (writesOf i s.mge.x)).endOk (invocationsOf i) := by
  obtain rfl := eq_finish_of_exec h
  rw [State.finish_mge] at he ⊢
  rcases runOf_cases i s.mge s.oracle with ⟨e, -, h⟩ | ⟨-, k, -, -, -, h⟩ | ⟨h1, h2, h⟩ <;> rw [h] at he ⊢
  · simp at he
  · simp at he
  · exact ⟨h1, h2, rfl⟩

/-- A run depends on the lengths and the data only through its length error and its writes. -/
theorem runOf_congr (i : Instr) (m m' : Mge) (o : Oracle) (hl : lengthError i m.len = lengthError i m'.len)
    (hw : writesOf i m.x = writesOf i m'.x) : runOf i m o = runOf i m' o := by
  rcases runOf_cases i m o with ⟨e, he, h⟩ | ⟨h0, k, hk, hf, hb, h⟩ | ⟨h0, ho, h⟩
  · rw [h, runOf_lengthError i m' o e (hl ▸ he)]
  · rw [h]
    rcases runOf_cases i m' o with ⟨e, he, -⟩ | ⟨-, k', -, hf', hb', h'⟩ | ⟨-, ho', -⟩
    · simp [← hl, h0] at he
    · rcases Nat.lt_trichotomy k k' with hlt | rfl | hlt
      · simp [hb' k hlt] at hf
      · exact h'.symm
      · simp [hb k' hlt] at hf'
    · simp [ho' k hk] at hf
  · rw [h, hw, runOf_ok i m' o (hl ▸ h0) ho]

end Sys2Proof.Machine
end

