-- ==== Sys2Proof/Laws/PerInstr.lean ====
section
/-! SUPPORT. Statements about each command as syntax, one lemma per constructor. -/

namespace Sys2Proof.Laws.Shape

open Sys2Proof.Machine

/-- A command's slots are as R85 and R20 give them: it is well-formed, its byte is below 0x20 (R80), no command writes KI, OP,
RAND or BLK (R20), and what it reads is among what it checks (R22). -/
def Statement (i : Instr) : Prop :=
  instrWF i = true ∧ (encode i).toNat < 0x20 ∧ (∀ s ∈ resultsOf i, s ∉ [Slot.ki, .op, .rand, .blk]) ∧
  ∀ s ∈ dataOf i, s ∈ operandsOf i

theorem enc : Statement .enc := by refine ⟨?_, ?_, ?_, ?_⟩ <;> decide
theorem dopc : Statement .dopc := by refine ⟨?_, ?_, ?_, ?_⟩ <;> decide
theorem eval : Statement .eval := by refine ⟨?_, ?_, ?_, ?_⟩ <;> decide
theorem fres : Statement .fres := by refine ⟨?_, ?_, ?_, ?_⟩ <;> decide
theorem fck : Statement .fck := by refine ⟨?_, ?_, ?_, ?_⟩ <;> decide
theorem gen : Statement .gen := by refine ⟨?_, ?_, ?_, ?_⟩ <;> decide
theorem genU : Statement .genU := by refine ⟨?_, ?_, ?_, ?_⟩ <;> decide

end Sys2Proof.Laws.Shape
end

