-- ==== Sys2Proof/Laws/Window.lean ====
section
/-! SUPPORT. The map of the window (20_memory.md R52) and what one host write can do to MGE (R51). -/

namespace Sys2Proof.Machine

/-- The map finds byte `i` of slot `s` at `base(s) + i` (R20). -/
@[simp] theorem locate_dataAddr (s : Slot) (i : Fin s.cap) : locate (dataAddr s i.val) = .data s i := by
  cases s <;> revert i <;> decide

/-- The map finds `len[s]` at 0xA0 + index (R20). -/
@[simp] theorem locate_lenAddr (s : Slot) : locate (lenAddr s) = .len s := by
  cases s <;> decide

/-- The window address of a place, where it has just one. -/
def Loc.addr : Loc → Option Byte
  | .data s i => some (dataAddr s i.val)
  | .len s => some (lenAddr s)
  | .cmd => some 0xF0#8
  | .status => some 0xF1#8
  | .errcode => some 0xF2#8
  | .ncalls => some 0xF3#8
  | .reserved => none

/-- The map is one to one outside the reserved addresses: no two registers share an address. -/
theorem addr_locate (a : Byte) : locate a = .reserved ∨ (locate a).addr = some a := by
  revert a; decide +kernel

/-- Two addresses with one place that is not reserved are one address. -/
theorem locate_inj {a b : Byte} (h : locate a = locate b) (hr : locate a ≠ .reserved) : a = b := by
  have ha := (addr_locate a).resolve_left hr
  have hb := (addr_locate b).resolve_left (h ▸ hr)
  rw [h, hb] at ha
  exact (Option.some.inj ha).symm

/-- The address of a place found there. -/
theorem eq_of_locate {a b : Byte} {l : Loc} (h : locate a = l) (hb : l.addr = some b) : a = b := by
  rcases addr_locate a with hr | ha
  · rw [hr] at h; subst h; cases hb
  · rw [h, hb] at ha; exact (Option.some.inj ha).symm

/-- Everything a host write can do to MGE (R51). -/
theorem memWrite_cases (m : Mge) (a v : Byte) :
    (∃ s i, locate a = .data s i ∧ m.busy = false ∧ m.memWrite a v = m.setByte s i v) ∨
    (∃ s, locate a = .len s ∧ m.busy = false ∧ m.memWrite a v = m.setLen s v) ∨
    (locate a = .cmd ∧ m.busy = false ∧ m.memWrite a v = m.accept v) ∨
    (((∃ s i, locate a = .data s i) ∨ (∃ s, locate a = .len s) ∨ locate a = .cmd) ∧ m.busy = true ∧
      m.memWrite a v = m.overrun) ∨
    (locate a = .status ∧ clearsOvr v = true ∧ m.memWrite a v = m.clearOvr) ∨
    m.memWrite a v = m := by
  have e : m.memWrite a v = m.writeLoc (locate a) v := rfl
  cases h : locate a with
  | data s i =>
    cases hb : m.busy
    · exact .inl ⟨s, i, rfl, rfl, by rw [e, h]; simp [Mge.writeLoc, hb]⟩
    · exact .inr (.inr (.inr (.inl ⟨.inl ⟨s, i, rfl⟩, rfl, by rw [e, h]; simp [Mge.writeLoc, hb]⟩)))
  | len s =>
    cases hb : m.busy
    · exact .inr (.inl ⟨s, rfl, rfl, by rw [e, h]; simp [Mge.writeLoc, hb]⟩)
    · exact .inr (.inr (.inr (.inl ⟨.inr (.inl ⟨s, rfl⟩), rfl, by rw [e, h]; simp [Mge.writeLoc, hb]⟩)))
  | cmd =>
    cases hb : m.busy
    · exact .inr (.inr (.inl ⟨rfl, rfl, by rw [e, h]; simp [Mge.writeLoc, hb]⟩))
    · exact .inr (.inr (.inr (.inl ⟨.inr (.inr rfl), rfl, by rw [e, h]; simp [Mge.writeLoc, hb]⟩)))
  | status =>
    cases hv : clearsOvr v
    · exact .inr (.inr (.inr (.inr (.inr (by rw [e, h]; simp [Mge.writeLoc, hv])))))
    · exact .inr (.inr (.inr (.inr (.inl ⟨rfl, rfl, by rw [e, h]; simp [Mge.writeLoc, hv]⟩))))
  | errcode => exact .inr (.inr (.inr (.inr (.inr (by rw [e, h]; rfl)))))
  | ncalls => exact .inr (.inr (.inr (.inr (.inr (by rw [e, h]; rfl)))))
  | reserved => exact .inr (.inr (.inr (.inr (.inr (by rw [e, h]; rfl)))))

/-- A host write while a command is pending changes OVR at most (R51, R234). -/
theorem memWrite_busy (m : Mge) (a v : Byte) (h : m.busy = true) :
    m.memWrite a v = m ∨ m.memWrite a v = m.overrun ∨ m.memWrite a v = m.clearOvr := by
  rcases memWrite_cases m a v with ⟨s, i, -, hb, -⟩ | ⟨s, -, hb, -⟩ | ⟨-, hb, -⟩ | ⟨-, -, e⟩ | ⟨-, -, e⟩ | e
  · simp [h] at hb
  · simp [h] at hb
  · simp [h] at hb
  · exact .inr (.inl e)
  · exact .inr (.inr e)
  · exact .inl e

/-- BUSY is one bit: whether a command is pending (R31). -/
theorem busy_eq (m : Mge) : m.busy = m.pend.isSome := rfl

@[simp] theorem locate_cmd : locate 0xF0#8 = .cmd := by decide
@[simp] theorem locate_status : locate 0xF1#8 = .status := by decide
@[simp] theorem locate_errcode : locate 0xF2#8 = .errcode := by decide
@[simp] theorem locate_ncalls : locate 0xF3#8 = .ncalls := by decide

/-- A data write while idle is the byte's write, and nothing else. -/
theorem memWrite_data_idle (m : Mge) (s : Slot) (i : Fin s.cap) (v : Byte) (h : m.pend = none) :
    m.memWrite (dataAddr s i.val) v = m.setByte s i v := by
  rw [Mge.memWrite, locate_dataAddr]
  simp [Mge.writeLoc, Mge.busy, h]

/-- A `len` write while idle is that register's write, and nothing else. -/
theorem memWrite_len_idle (m : Mge) (s : Slot) (v : Byte) (h : m.pend = none) :
    m.memWrite (lenAddr s) v = m.setLen s v := by
  rw [Mge.memWrite, locate_lenAddr]
  simp [Mge.writeLoc, Mge.busy, h]

/-- A byte set in a buffer reads as set. -/
theorem get_set_byte {n : Nat} (b : Bytes n) (i : Fin n) (v : Byte) : (b.set i.val v i.isLt).get i = v := by
  simp [Vector.get_eq_getElem]

/-- The other bytes of the buffer stay. -/
theorem get_set_byte_other {n : Nat} (b : Bytes n) (i j : Fin n) (v : Byte) (h : j ≠ i) :
    (b.set i.val v i.isLt).get j = b.get j := by
  have : i.val ≠ j.val := fun e => h (Fin.ext e.symm)
  simp [Vector.get_eq_getElem, this]

end Sys2Proof.Machine
end

