-- ==== Sys2Proof/Laws/Step.lean ====
section
/-! SUPPORT. What one step can do: the host's move, the engine's move, the reset event, each once
(60_exceptions.md R207, R208). -/

namespace Sys2Proof.Machine

/-! ### The host's move -/

/-- What a host move leaves alone whatever it is: the program, the coming moves and the oracle. -/
structure HostMoved (s t : State) : Prop where
  prog : t.host.prog = s.host.prog
  agenda : t.agenda = s.agenda
  oracle : t.oracle = s.oracle
  /-- MGE is as it was, or one byte was written at one address and the transaction is on the trace. -/
  mge : (t.mge = s.mge ∧ ∀ a v, t.host.trace ≠ .w a v :: s.host.trace) ∨
    ∃ a v, t.mge = s.mge.memWrite a v ∧ t.host.trace = .w a v :: s.host.trace

theorem hostMoved_write (s : State) (a v : Byte) : HostMoved s (s.hostWrite a v) :=
  ⟨rfl, rfl, rfl, .inr ⟨a, v, rfl, rfl⟩⟩

theorem hostMoved_stay (s : State) (h : HostAgent) (hp : h.prog = s.host.prog) (ht : h.trace = s.host.trace) :
    HostMoved s { s with host := h } :=
  ⟨hp, rfl, rfl, .inl ⟨rfl, fun a v e => by
    have := congrArg List.length e
    simp [ht] at this⟩⟩

theorem hostMoved_read (s : State) (a : Byte) (f : HostAgent → Byte → HostAgent)
    (hp : ∀ h b, (f h b).prog = h.prog) (ht : ∀ h b, (f h b).trace = h.trace) :
    HostMoved s (s.hostRead a f) :=
  ⟨by simp [hp], rfl, rfl, .inl ⟨rfl, fun x v e => by simp [ht] at e⟩⟩

theorem hostJump_cases (s t : State) (l : String) (h : s.hostJump l = .next t) : HostMoved s t := by
  unfold State.hostJump at h
  split at h
  · cases h; exact hostMoved_stay s _ rfl rfl
  · cases h

/-- A statement's step, when it has one (R87). -/
theorem hostStmt_moved (s t : State) (st : HostStmt) (h : s.hostStmt st = .next t) : HostMoved s t := by
  cases st with
  | wr a v => cases h; exact hostMoved_write s a v
  | rd a v => cases h; exact hostMoved_read s a _ (fun _ _ => rfl) (fun _ _ => rfl)
  | poll a m v =>
    cases h
    exact hostMoved_read s a _ (fun h b => by split <;> rfl) (fun h b => by split <;> rfl)
  | jnz v m l =>
    simp only [State.hostStmt] at h
    split at h
    · cases h; exact hostMoved_stay s _ rfl rfl
    · exact hostJump_cases s t l h
  | jmp l => exact hostJump_cases s t l h
  | readWide a n =>
    simp only [State.hostStmt] at h
    split at h
    · cases h; exact hostMoved_read s a _ (fun _ _ => rfl) (fun _ _ => rfl)
    · cases h
  | writeWide a n v =>
    simp only [State.hostStmt] at h
    split at h
    · cases h; exact hostMoved_write s a _
    · cases h

theorem hostStep_moved (s t : State) (h : s.hostStep = .next t) : HostMoved s t := by
  unfold State.hostStep at h
  split at h
  · cases h
    exact hostMoved_stay s s.host rfl rfl
  · exact hostStmt_moved s t _ h

/-! ### The engine's move -/

/-- What an engine move can be: nothing pending and nothing done, a legal command's completion, or an illegal byte's. -/
theorem engineStep_cases (s t : State) (h : s.engineStep = .next t) :
    (s.mge.pend = none ∧ t = s) ∨
    (∃ c i, s.mge.pend = some c ∧ decode c = .legal i ∧ t = s.finish (runOf i s.mge s.oracle)) ∨
    (∃ c d, s.mge.pend = some c ∧ decode c = .illegal d ∧ t = s.completeIllegal) := by
  unfold State.engineStep at h
  split at h
  next hp => cases h; exact .inl ⟨hp, rfl⟩
  next c hp =>
    split at h
    next i hd =>
      rw [exec_eq] at h; cases h
      exact .inr (.inl ⟨c, i, hp, hd, rfl⟩)
    next d hd => cases h; exact .inr (.inr ⟨c, d, hp, hd, rfl⟩)

/-- The engine never stops (R207, R208). -/
theorem engineStep_next (s : State) : ∃ t, s.engineStep = .next t := by
  unfold State.engineStep
  split
  · exact ⟨_, rfl⟩
  · split
    · exact ⟨_, exec_eq _ s⟩
    · exact ⟨_, rfl⟩

/-! ### One step -/

/-- Everything a step can be (R208). -/
theorem step_cases (s t : State) (h : step s = .next t) :
    (s.turn = .host ∧ HostMoved s.pop t) ∨
    (s.turn = .engine ∧ s.pop.engineStep = .next t) ∨
    (s.turn = .reset ∧ t = s.pop.resetEvent) := by
  unfold step at h
  split at h
  next ht => exact .inl ⟨ht, hostStep_moved _ _ h⟩
  next ht => exact .inr (.inl ⟨ht, h⟩)
  next ht => cases h; exact .inr (.inr ⟨ht, rfl⟩)

/-- A run of `k + 1` steps whose first answers a next state is the run of `k` steps from there. -/
theorem core_run_succ (M : Host.Core) (k : Nat) (s t : M.State) (h : M.step s = .next t) :
    M.run (k + 1) s = M.run k t := by
  simp [Host.Core.run, h]

/-! ### The invariants of R34 -/

theorem inv_accept (m : Mge) (c : Byte) : (m.accept c).Inv := by
  constructor <;> simp

theorem code_ne_zero (e : Err) : e.code ≠ 0x00#8 := by cases e <;> decide

theorem code_le_five (e : Err) : e.code.toNat ≤ 5 := by cases e <;> decide

/-- An error came from an invocation exactly when invocations were made (R101, R203). -/
def Run.errorFits {α : Type} : Run α → Prop
  | .ok _ _ => True
  | .err e n => e = .cipherFailure ↔ n ≠ 0

/-- A completion meets R34 when at most five invocations were made and its error fits their number. -/
theorem inv_complete (m : Mge) (r : Run (List SlotWrite)) (h : r.calls ≤ 5) (hf : r.errorFits) :
    (m.complete r).Inv := by
  cases r with
  | ok ws n =>
    simp only [Run.calls_ok] at h
    constructor <;> (simp; try omega)
  | err e n =>
    simp only [Run.calls_err] at h
    simp only [Run.errorFits] at hf
    have h5 := code_le_five e
    have h0 := code_ne_zero e
    have hn : (BitVec.ofNat 8 n : Byte) = 0#8 ↔ n = 0 := by
      constructor
      · intro e0
        have := congrArg BitVec.toNat e0
        simp at this
        omega
      · rintro rfl; rfl
    constructor
    · simp
    · simp
    · simp [h0]
    · simp; omega
    · simp
    · simpa using h5
    · intro _ h4
      have : e ≠ .cipherFailure := by rintro rfl; exact h4 rfl
      simp only [Mge.complete_err, Mge.endErr_ncalls, hn]
      by_contra hc
      exact this (hf.2 hc)
    · intro h4
      have he : e = .cipherFailure := by
        cases e <;> first | rfl | (simp [Err.code] at h4)
      simp only [Mge.complete_err, Mge.endErr_ncalls, ne_eq, hn]
      exact hf.1 he

/-- A write that changes only slots, `len` or OVR keeps R34. -/
theorem Mge.Inv.of_same {m m' : Mge} (h : m.Inv) (hp : m'.pend = m.pend) (hd : m'.done = m.done) (he : m'.err = m.err)
    (hc : m'.errcode = m.errcode) (hn : m'.ncalls = m.ncalls) : m'.Inv where
  idleOrNotDone := by rw [hp, hd]; exact h.idleOrNotDone
  errDone := by rw [he, hd]; exact h.errDone
  codeErr := by rw [hc, he]; exact h.codeErr
  fewCalls := by rw [hn]; exact h.fewCalls
  busyNoCalls := by rw [hp, hn]; exact h.busyNoCalls
  knownCode := by rw [hc]; exact h.knownCode
  checkNoCalls := by rw [hc, hn]; exact h.checkNoCalls
  failureCounts := by rw [hc, hn]; exact h.failureCounts

theorem inv_memWrite (m : Mge) (a v : Byte) (h : m.Inv) : (m.memWrite a v).Inv := by
  rcases memWrite_cases m a v with ⟨s, i, -, -, e⟩ | ⟨s, -, -, e⟩ | ⟨-, -, e⟩ | ⟨-, -, e⟩ | ⟨-, -, e⟩ | e <;> rw [e]
  · exact h.of_same rfl rfl rfl rfl rfl
  · exact h.of_same rfl rfl rfl rfl rfl
  · exact inv_accept m v
  · exact h.of_same rfl rfl rfl rfl rfl
  · exact h.of_same rfl rfl rfl rfl rfl
  · exact h

/-- A command makes at most five invocations (R27, R162). -/
theorem runOf_calls_le (i : Instr) (m : Mge) (o : Oracle) : (runOf i m o).calls ≤ invocationsOf i := by
  rcases runOf_cases i m o with ⟨e, -, h⟩ | ⟨-, k, hk, -, -, h⟩ | ⟨-, -, h⟩ <;> (rw [h]; simp)
  omega

theorem invocationsOf_le (i : Instr) : invocationsOf i ≤ 5 := by cases i <;> decide

/-- A command's length errors come before any invocation, its failures after at least one (R101, R203). -/
theorem runOf_errorFits (i : Instr) (m : Mge) (o : Oracle) : (runOf i m o).errorFits := by
  rcases runOf_cases i m o with ⟨e, he, h⟩ | ⟨-, k, hk, -, -, h⟩ | ⟨-, -, h⟩ <;> rw [h]
  · have : e ≠ .cipherFailure := by
      rintro rfl
      cases i <;> simp only [lengthError] at he <;> repeat' split at he
      all_goals cases he
    simp [Run.errorFits, this]
  · simp [Run.errorFits]
  · trivial

/-! ### Programs -/

/-- A jump to a label of the program has a target (R87). -/
theorem hostJump_of_label (s : State) (l : String) (h : (labelsOf s.host.prog).contains l = true) :
    ∃ t, s.hostJump l = .next t ∧ t.host.prog = s.host.prog := by
  unfold State.hostJump
  split
  · exact ⟨_, rfl, rfl⟩
  next hn =>
    exfalso
    simp [HostAgent.target, List.findIdx?_eq_none_iff] at hn
    simp [labelsOf] at h
    obtain ⟨x, hx, e⟩ := h
    exact hn x hx e

/-- The stops of one statement (R56, R87; log entry 6). -/
theorem hostJump_stops (s : State) (l : String) :
    (∀ f, s.hostJump l = .fault f → f = .undefinedLabel l ∧ s.host.target l = none) ∧
    ∀ r, s.hostJump l ≠ .refused r := by
  unfold State.hostJump
  split
  · simp
  next h => simp [h]

end Sys2Proof.Machine
end

