-- ==== Sys2Proof/Tests/Slice0.lean ====
section
/-! SUPPORT. Tests with the expected results of 95_test_vectors.md and of the encoding rules, and for every obligation with
hypotheses a concrete state and operands that meet them. -/

namespace Sys2Proof.Tests

open Sys2Proof Sys2Proof.Machine

-- Tests one after another: their kernel evaluations need no more threads than one.
set_option Elab.async false

/-! ### Helpers -/

/-- The state an outcome gives; the reset state where it gives none. -/
def after : Host.Outcome State Fault Refusal → State
  | .next t => t
  | _ => State.reset

/-- Whether an outcome is a next state. -/
def isNext : Host.Outcome State Fault Refusal → Bool
  | .next _ => true
  | _ => false

theorem next_of {o : Host.Outcome State Fault Refusal} (P : State → Prop) (h : isNext o = true) (hp : P (after o)) :
    ∃ t, o = .next t ∧ P t := by
  cases o with
  | next t => exact ⟨t, rfl, hp⟩
  | fault f => cases h
  | refused r => cases h

/-- Constants of 95_test_vectors.md section 9. -/
def k1 : Block := ofInt 16 0x465b5ce8b199b49faa5f0a2ee238a6bc
def op1 : Block := ofInt 16 0xcdc202d5123e20f62b6d676ac72cb318
def r1 : Block := ofInt 16 0x23553cbe9637a89d218ae64dae47bf35
def r2 : Block := ofInt 16 0xc00d603103dcee52c4478119494202e8
def opc1 : Block := ofInt 16 0xcd63cb71954a9f4e48a5994e37a02baf

/-- Every `len` at its capacity. -/
def fullLens : Lens :=
  { ki := 16#8, op := 16#8, opc := 16#8, rand := 16#8, blk := 16#8, out := 16#8, res := 8#8, sres := 4#8, ck := 16#8,
    ik := 16#8, kc := 8#8 }

/-- The data of test set 1, BLK holding OP. -/
def set1 : Slots :=
  { Slots.zero with
    ki := k1, op := op1, opc := opc1, rand := r1, blk := op1, res := ofInt 8 0xa54211d5e3ba50bf,
    ck := ofInt 16 0xb40ba9a3c58b2a05bbf0d987b21bf8cb, ik := ofInt 16 0xf769bcd751044604127672711c6d3441 }

/-- A state of test set 1 with every slot well-formed. -/
def full : State := { State.reset with mge := { Mge.reset with x := set1, len := fullLens } }

/-- The same with other lengths. -/
def withLens (l : Lens) : State := { full with mge := { full.mge with len := l } }

/-- The same with other data. -/
def withData (x : Slots) : State := { full with mge := { full.mge with x := x } }

/-- The same with invocations that may fail and the draws given. -/
def drawing (ds : List Draw) : State := { full with oracle := { mayFail := true, draws := ds, drawn := 0 } }

/-- A command byte pending, and the moves given. -/
def pending (c : Byte) (ts : List Turn) : State := { full with mge := full.mge.accept c, agenda := ts }

/-- A host program to run from its first line, and the moves given. -/
def hosting (s : State) (p : List HostLine) (ts : List Turn) : State := { s.withProgram p with agenda := ts }

/-- A host program with host variables already set. -/
def withVars (p : List HostLine) (vs : List (HVar × Byte)) : State :=
  { full with host := { prog := p, pos := 0, vars := vs, trace := [] } }

/-- A program of one statement. -/
def one (st : HostStmt) : List HostLine := [⟨none, st⟩]

/-- A pending command while the host writes `v` at `a`. -/
def lateWrite (a v : Byte) : State := hosting (pending 0x01#8 []) (one (.wr a v)) [.host]

/-- STATUS, ERRCODE and NCALLS. -/
def codes (s : State) : List Byte := [s.mge.memRead 0xF1#8, s.mge.memRead 0xF2#8, s.mge.memRead 0xF3#8]

/-! ### Well-formedness refuses what it should -/

theorem test_wf_z : fieldsLegal ⟨0x1#4, 0#1, 1#3⟩ = false := by decide
theorem test_wf_opc4_zero : fieldsLegal ⟨0x0#4, 0#1, 0#3⟩ = false := by decide
theorem test_wf_opc4_seven : fieldsLegal ⟨0x7#4, 0#1, 0#3⟩ = false := by decide
theorem test_wf_u : fieldsLegal ⟨0x5#4, 1#1, 0#3⟩ = false ∧ fieldsLegal ⟨0x6#4, 1#1, 0#3⟩ = true := by decide
theorem test_wf_label_twice : programWF [⟨some "a", .jmp "a"⟩, ⟨some "a", .wr 0xF0#8 0x01#8⟩] = false := by decide
theorem test_wf_no_target : programWF (one (.jmp "a")) = false ∧
    programWF (one (.jnz (.named "h") 0x01#8 "a")) = false := by decide
theorem test_wf_wide : programWF (one (.readWide 0x00#8 2)) = false ∧
    programWF (one (.writeWide 0x00#8 4 0)) = false ∧ programWF (one (.readWide 0x00#8 1)) = true := by decide
theorem test_load_256 : expand (.load .ki (List.replicate 256 0x00#8)) = none := by decide +kernel

/-! ### Decoding words written out from R80 to R82: Z, U, OPC4 -/

theorem test_decode_enc : decode (0b000#3 ++ 0b0#1 ++ 0b0001#4) = .legal .enc := by decide
theorem test_decode_dopc : decode (0b000#3 ++ 0b0#1 ++ 0b0010#4) = .legal .dopc := by decide
theorem test_decode_eval : decode (0b000#3 ++ 0b0#1 ++ 0b0011#4) = .legal .eval := by decide
theorem test_decode_fres : decode (0b000#3 ++ 0b0#1 ++ 0b0100#4) = .legal .fres := by decide
theorem test_decode_fck : decode (0b000#3 ++ 0b0#1 ++ 0b0101#4) = .legal .fck := by decide
theorem test_decode_gen : decode (0b000#3 ++ 0b0#1 ++ 0b0110#4) = .legal .gen := by decide
theorem test_decode_genU : decode (0b000#3 ++ 0b1#1 ++ 0b0110#4) = .legal .genU := by decide
/-- W-1's bytes. -/
theorem test_decode_illegal : [0x00#8, 0x07#8, 0x0F#8, 0x11#8, 0x15#8, 0x17#8, 0x26#8, 0x86#8, 0xFF#8].map decode =
    [0x00#8, 0x07#8, 0x0F#8, 0x11#8, 0x15#8, 0x17#8, 0x26#8, 0x86#8, 0xFF#8].map .illegal := by decide

/-! ### The cipher, 95_test_vectors.md section 2 and 41_aes128.md R131 -/

/-- A-1, FIPS-197 Appendix C.1. -/
theorem test_aes_a1 : E (ofInt 16 0x000102030405060708090a0b0c0d0e0f) (ofInt 16 0x00112233445566778899aabbccddeeff) =
    ofInt 16 0x69c4e0d86a7b0430d8cdb78070b4c55a := by decide +kernel
/-- R131: the last words of the key expansion. -/
theorem test_key_expansion :
    ((keyExpansion (ofInt 16 0x2b7e151628aed2a6abf7158809cf4f3c)).drop 40).map intOf =
      [0xd014f9a8, 0xc9ee2589, 0xe13f0cc8, 0xb6630ca6] := by decide +kernel

/-! ### The commands, 95_test_vectors.md sections 2 to 6 -/

/-- A-5 by ENC. -/
theorem test_enc : (after (exec .enc full)).mge.x.out = ofInt 16 0x00a1c9a48774bfb863c8fe24f08c98b7 ∧
    codes (after (exec .enc full)) = [0x02#8, 0x00#8, 0x01#8] := by decide +kernel
/-- ENC-E2: the key's length is checked first. -/
theorem test_enc_e2 : codes (after (exec .enc (withLens { fullLens with ki := 15#8, blk := 0#8 }))) =
    [0x06#8, 0x02#8, 0x00#8] := by decide +kernel
/-- O-1. -/
theorem test_dopc : (after (exec .dopc (withData { set1 with opc := zeros 16 }))).mge.x.opc = opc1 ∧
    codes (after (exec .dopc full)) = [0x02#8, 0x00#8, 0x01#8] := by decide +kernel
/-- O-E1: never INVALID_KEY_LENGTH. -/
theorem test_dopc_e1 : codes (after (exec .dopc (withLens { fullLens with ki := 0#8 }))) =
    [0x06#8, 0x01#8, 0x00#8] := by decide +kernel
/-- Section 4.1, set 1. -/
theorem test_eval :
    let t := after (exec .eval (withData { set1 with res := zeros 8, ck := zeros 16, ik := zeros 16 }))
    t.mge.x.res = set1.res ∧ t.mge.x.ck = set1.ck ∧ t.mge.x.ik = set1.ik ∧ codes t = [0x02#8, 0x00#8, 0x04#8] := by
  decide +kernel
/-- M-E3: KI's length is checked by the unit, after RAND's and OPC's. -/
theorem test_eval_e3 : codes (after (exec .eval (withLens { fullLens with ki := 17#8 }))) =
    [0x06#8, 0x02#8, 0x00#8] := by decide +kernel
/-- F-1. -/
theorem test_fres : (after (exec .fres full)).mge.x.sres = ofInt 4 0x46f8416a ∧
    codes (after (exec .fres full)) = [0x02#8, 0x00#8, 0x00#8] := by decide +kernel
/-- F-E1. -/
theorem test_fres_e1 : codes (after (exec .fres (withLens { fullLens with res := 16#8 }))) =
    [0x06#8, 0x01#8, 0x00#8] := by decide +kernel
/-- K-1. -/
theorem test_fck : (after (exec .fck full)).mge.x.kc = ofInt 8 0xeae4be823af9a08b := by decide +kernel
/-- K-E1. -/
theorem test_fck_e1 : codes (after (exec .fck (withLens { fullLens with ik := 8#8 }))) =
    [0x06#8, 0x01#8, 0x00#8] := by decide +kernel
/-- G-1. -/
theorem test_gen :
    let t := after (exec .gen (withData { set1 with opc := zeros 16 }))
    t.mge.x.opc = opc1 ∧ t.mge.x.sres = ofInt 4 0x46f8416a ∧ t.mge.x.kc = ofInt 8 0xeae4be823af9a08b ∧
      codes t = [0x02#8, 0x00#8, 0x05#8] := by decide +kernel
/-- G-E4: all or nothing. -/
theorem test_gen_e4 :
    let t := after (exec .gen (drawing [.ok, .ok, .ok, .ok, .fail]))
    t.mge.x = set1 ∧ codes t = [0x06#8, 0x04#8, 0x05#8] := by decide +kernel
/-- G-U1. -/
theorem test_genU :
    let t := after (exec .genU (withData { set1 with rand := r2 }))
    t.mge.x.opc = opc1 ∧ t.mge.x.sres = ofInt 4 0xc988dd46 ∧ t.mge.x.kc = ofInt 8 0x47b4e2e462b5c6c6 ∧
      codes t = [0x02#8, 0x00#8, 0x04#8] := by decide +kernel
/-- G-E6: OP's length is checked, although its bytes are not read. -/
theorem test_genU_e6 : codes (after (exec .genU (withLens { fullLens with op := 0#8 }))) =
    [0x06#8, 0x01#8, 0x00#8] := by decide +kernel
/-- W-1: an illegal byte. -/
theorem test_illegal : codes (after (step (pending 0x07#8 [.engine]))) = [0x06#8, 0x05#8, 0x00#8] := by decide +kernel

/-! ### The window, 95_test_vectors.md section 7 -/

/-- W-3. -/
theorem test_ki_reads_zero : ((full.mge.memWrite 0x00#8 0xAA#8).memRead 0x00#8 = 0x00#8) ∧
    ((full.mge.memWrite 0x00#8 0xAA#8).x.ki[0] = 0xAA#8) := by decide +kernel
/-- W-4. -/
theorem test_reserved_read : [0x6C#8, 0x98#8, 0xAB#8, 0xF4#8, 0xFF#8].map full.mge.memRead =
    [0x00#8, 0x00#8, 0x00#8, 0x00#8, 0x00#8] := by decide +kernel
/-- W-5 and W-6. -/
theorem test_write_while_busy : (after (step (lateWrite 0x6C#8 0x55#8))).mge.ovr = false ∧
    (after (step (lateWrite 0x30#8 0x12#8))).mge.ovr = true ∧
    (after (step (lateWrite 0x30#8 0x12#8))).mge.x = set1 := by decide +kernel
/-- W-7 and W-8. -/
theorem test_clear_ovr : (full.mge.overrun.memWrite 0xF1#8 0x08#8).ovr = false ∧
    full.mge.overrun.memWrite 0xF1#8 0xF7#8 = full.mge.overrun := by decide +kernel
/-- W-9 and W-10. -/
theorem test_cmd_and_read_only : (full.mge.memWrite 0xF0#8 0x06#8).memRead 0xF0#8 = 0x00#8 ∧
    full.mge.memWrite 0xF2#8 0x33#8 = full.mge ∧ full.mge.memWrite 0xF3#8 0x33#8 = full.mge := by decide +kernel
/-- W-11. -/
theorem test_len_reads_back : (Mge.reset.memWrite 0xA0#8 0x10#8).memRead 0xA0#8 = 0x10#8 := by decide +kernel

/-! ### Byte sequences, 95_test_vectors.md section 1.3, and text -/

theorem test_rotations : rotb (ofInt 16 0x000102030405060708090a0b0c0d0e0f) 4 =
      ofInt 16 0x0405060708090a0b0c0d0e0f00010203 ∧
    flip (rotb (ofInt 16 0x000102030405060708090a0b0c0d0e0f) 8) 0x04#8 =
      ofInt 16 0x08090a0b0c0d0e0f0001020304050603 := by decide +kernel
theorem test_text : lineOfText "L1: poll 0xF1, 0x01, 0x00 ; wait" =
      some ⟨some "L1", .base (.poll 0xF1#8 0x01#8 0x00#8)⟩ ∧
    lineOfText "load SRES, 46f8416a" = some ⟨none, .load .sres [0x46#8, 0xf8#8, 0x41#8, 0x6a#8]⟩ ∧
    lineOfText "run GEN.U" = some ⟨none, .run .genU⟩ ∧
    lineOfText "jnz RES[7], 0x80, L1" = some ⟨none, .base (.jnz (.slotByte .res 7) 0x80#8 "L1")⟩ := by decide +kernel

/-! ### Witnesses: states and operands that meet the obligations' hypotheses -/

theorem witness_DecodeIsTheSpecTable :
    ∀ c ∈ [0x00#8, 0x07#8, 0x15#8, 0x17#8, 0xFF#8],
      c ∉ [0x01#8, 0x02#8, 0x03#8, 0x04#8, 0x05#8, 0x06#8, 0x16#8] := by decide
theorem witness_ExactlySevenLegalBytes :
    (0x16#8).getLsbD 4 = true ∧ decode 0x16#8 = .legal .genU ∧
    0x11#8 ∈ [0x11#8, 0x12#8, 0x13#8, 0x14#8, 0x15#8] ∧ 0x15#8 ∈ [0x11#8, 0x12#8, 0x13#8, 0x14#8, 0x15#8] := by decide
theorem witness_DecodeInvertsEncode : instrWF .enc = true ∧ instrWF .genU = true ∧
    decode 0x01#8 = .legal .enc ∧ decode 0x16#8 = .legal .genU := by decide
theorem witness_StepRunsThePendingCommand :
    ((pending 0x16#8 [.engine]).turn = .engine ∧ (pending 0x16#8 [.engine]).mge.pend = some 0x16#8 ∧
      decode 0x16#8 = .legal .genU) ∧
    ((pending 0x01#8 []).turn = .engine ∧ (pending 0x01#8 []).mge.pend = some 0x01#8 ∧
      decode 0x01#8 = .legal .enc) ∧
    decodeTableWord 8 0x16 = some .genU := by decide +kernel
theorem witness_IllegalByteEndsInIllegalCommand :
    0x00#8 ∉ [0x01#8, 0x02#8, 0x03#8, 0x04#8, 0x05#8, 0x06#8, 0x16#8] ∧
    0xFF#8 ∉ [0x01#8, 0x02#8, 0x03#8, 0x04#8, 0x05#8, 0x06#8, 0x16#8] ∧ full.mge.pend = none ∧
    (pending 0xFF#8 []).turn = .engine ∧ (pending 0xFF#8 []).mge.pend = some 0xFF#8 := by decide +kernel
theorem witness_EveryAgentCanMoveNext :
    ((pending 0x01#8 []).agenda = [] ∧ (pending 0x01#8 []).mge.pend ≠ none) ∧
    (full.agenda = [] ∧ full.mge.pend = none) := by decide +kernel
/-- One step of each kind: a host write, an engine completion of a legal and of an illegal byte, the reset event, and a
move that changes nothing. -/
theorem witness_EveryStepIsOneAgentsMove :
    isNext (step (lateWrite 0x30#8 0x12#8)) = true ∧ isNext (step (pending 0x04#8 [.engine])) = true ∧
    isNext (step (pending 0xFF#8 [.engine])) = true ∧ isNext (step (pending 0x04#8 [.reset])) = true ∧
    isNext (step full) = true := by decide +kernel
/-- With a reset listed and with none. -/
theorem witness_PendingCommandIsCompletedOrAbandoned : ∀ ts ∈ [[.host, .host], [.host, .reset, .engine], []],
    let s := hosting (pending 0x04#8 []) (one (.poll 0xF1#8 0x01#8 0x00#8)) ts
    programWF s.host.prog = true ∧ s.mge.pend ≠ none := by decide +kernel
theorem witness_RotationIsTowardTheMostSignificantEnd : 0 < 16 ∧ 15 < 16 ∧ (0 : Fin 16) ≠ 15 ∧ (14 : Fin 16) ≠ 15 := by
  decide
theorem witness_CipherRunsItsRoundsOnTheStateArray : 0 < 9 ∧ 8 < 9 := by decide
theorem witness_WellFormedProgramNeverStops :
    programWF [⟨some "a", .rd 0xF1#8 (.named "h")⟩, ⟨none, .jnz (.named "h") 0x01#8 "a"⟩, ⟨none, .jmp "a"⟩] = true := by
  decide
theorem witness_StopsAreTheHostsAlone :
    step (hosting full (one (.jmp "a")) [.host]) = .fault (.undefinedLabel "a") ∧
    step (hosting full (one (.writeWide 0x00#8 4 0)) [.host]) = .refused (.accessWidth 4) := ⟨rfl, rfl⟩
theorem witness_WideAccessIsRefused : (0 : Nat) ≠ 1 ∧ (2 : Nat) ≠ 1 := by decide
theorem witness_QuiescentMachineStaysAsItIs :
    (full.quiescent ∧ full.turn ≠ .reset) ∧
    State.quiescent { full with agenda := [.engine] } ∧ State.turn { full with agenda := [.engine] } ≠ .reset := by
  unfold State.quiescent; decide +kernel
theorem witness_StepKeepsTheHostVariablesDistinct :
    let s := withVars (one (.rd 0xF1#8 (.named "h"))) [(.named "h", 0x01#8), (.slotByte .res 0, 0x02#8)]
    (s.host.vars.map (·.1)).Nodup ∧ isNext (step s) = true := by decide +kernel
theorem witness_ResetEventFromAnyState : (pending 0x01#8 [.reset]).turn = .reset ∧
    (pending 0x01#8 [.reset]).mge.pend = some 0x01#8 := by decide +kernel
theorem witness_CommandsFailBeforeLoading : ∀ sl ∈ Slot.all, State.reset.mge.len.get sl = 0#8 := by decide +kernel
/-- The invariant in an idle state, with a command pending, after a failed check and after a failed invocation; and a step
from each. -/
theorem witness_StepKeepsTheInvariant :
    (full.mge.Inv ∧ isNext (step full) = true) ∧
    ((pending 0x06#8 [.engine]).mge.Inv ∧ isNext (step (pending 0x06#8 [.engine])) = true) ∧
    (full.mge.endErr .invalidLength 0).Inv ∧ (full.mge.endErr .cipherFailure 5).Inv := by
  refine ⟨⟨?_, by decide +kernel⟩, ⟨?_, by decide +kernel⟩, ?_, ?_⟩ <;> constructor <;> decide +kernel
theorem witness_StatusByteShowsTheFlags :
    (0x08#8).getLsbD 3 = true ∧ (0xFF#8).getLsbD 3 = true ∧ (0x00#8).getLsbD 3 = false ∧ (0xF7#8).getLsbD 3 = false ∧
    ((full.mge.endErr .invalidLength 0).Inv ∧ (full.mge.endErr .invalidLength 0).err = true) ∧
    ((pending 0x06#8 []).mge.Inv ∧ (pending 0x06#8 []).mge.pend.isSome = true) := by
  refine ⟨by decide, by decide, by decide, by decide, ⟨?_, by decide +kernel⟩, ?_, by decide +kernel⟩ <;> constructor <;>
    decide +kernel
/-- The ends of the four reserved ranges, and the two ends of the slots. -/
theorem witness_HostReadReturnsTheTable :
    (∀ a ∈ [0x6C#8, 0x6F#8, 0x98#8, 0x9F#8, 0xAB#8, 0xEF#8, 0xF4#8, 0xFF#8],
      (0x6C ≤ a.toNat ∧ a.toNat ≤ 0x6F) ∨ (0x98 ≤ a.toNat ∧ a.toNat ≤ 0x9F) ∨
      (0xAB ≤ a.toNat ∧ a.toNat ≤ 0xEF) ∨ 0xF4 ≤ a.toNat) ∧ Slot.op ≠ .ki ∧ Slot.kc ≠ .ki := by decide
/-- Idle and BUSY, and a reserved address at each end. -/
theorem witness_HostWriteFollowsTheRule :
    full.mge.pend.isSome = false ∧ (pending 0x01#8 []).mge.pend.isSome = true ∧
    (∀ a ∈ [0x6C#8, 0x6F#8, 0x98#8, 0x9F#8, 0xAB#8, 0xEF#8, 0xF4#8, 0xFF#8],
      (0x6C ≤ a.toNat ∧ a.toNat ≤ 0x6F) ∨ (0x98 ≤ a.toNat ∧ a.toNat ≤ 0x9F) ∨
      (0xAB ≤ a.toNat ∧ a.toNat ≤ 0xEF) ∨ 0xF4 ≤ a.toNat) := by decide +kernel
theorem witness_ReservedAddressesDoNothing :
    ∀ a ∈ [0x6C#8, 0x6F#8, 0x98#8, 0x9F#8, 0xAB#8, 0xEF#8, 0xF4#8, 0xFF#8], locate a = .reserved := by decide +kernel
theorem witness_KiDataCannotBeReadBack :
    let s := hosting full (one (.rd 0x00#8 (.named "h"))) [.host]
    isNext s.hostStep = true ∧
    isNext (State.hostStep { s with mge := { s.mge with x := { s.mge.x with ki := r1 } } }) = true := by decide +kernel
theorem witness_SlotAccessFollowsTheRule :
    full.mge.pend = none ∧ (15 : Fin (Slot.cap .ki)) ≠ 0 ∧ Slot.kc ≠ .ki := by decide +kernel
theorem witness_WriteThenReadBack :
    full.mge.pend = none ∧ Slot.kc ≠ .ki ∧ (0xA0#8 : Byte) ≠ 0xFF#8 ∧ (0xA0#8 : Byte) ≠ 0xF0#8 ∧
    (0xA0#8 : Byte) ≠ 0xF1#8 ∧ (0x00#8 : Byte) ≠ 0x97#8 ∧ (0x00#8 : Byte) ≠ 0xF0#8 ∧ (0x00#8 : Byte) ≠ 0xF1#8 := by
  decide +kernel
theorem witness_HostCannotDisturbAPendingCommand :
    (lateWrite 0x00#8 0x12#8).mge.pend ≠ none ∧ (lateWrite 0x00#8 0x12#8).turn = .host ∧
    isNext (step (lateWrite 0x00#8 0x12#8)) = true := by decide +kernel
/-- OVR set by a lost write; kept by a completion, and cleared by the host and by reset. -/
theorem witness_OvrStaysUntilCleared :
    let m := (pending 0x04#8 []).mge
    let s := { pending 0x04#8 [.engine] with mge := m.overrun }
    (m.ovr = false ∧ (m.memWrite 0x00#8 0x12#8).ovr = true) ∧
    (s.mge.ovr = true ∧ isNext (step s) = true) ∧
    isNext (step (hosting { full with mge := full.mge.overrun } (one (.wr 0xF1#8 0x08#8)) [.host])) = true ∧
    isNext (step { s with agenda := [.reset] }) = true := by decide +kernel
theorem witness_OvrIsSetOnlyByALostWrite :
    ∀ a ∈ [0x00#8, 0x97#8, 0xA0#8, 0xAA#8, 0xF0#8],
      (lateWrite a 0x12#8).mge.ovr = false ∧ isNext (step (lateWrite a 0x12#8)) = true ∧
      (after (step (lateWrite a 0x12#8))).mge.ovr = true := by decide +kernel
theorem witness_PendingByteIsHidden : full.mge.pend = none ∧ (pending 0x00#8 []).mge.pend ≠ none := by decide +kernel
/-- A `len` changed by each of the three events. -/
theorem witness_LenChangesOnlyByThreeEvents :
    (let s := hosting full (one (.wr 0xA0#8 0xFF#8)) [.host]
     isNext (step s) = true ∧ (after (step s)).mge.len.get .ki ≠ s.mge.len.get .ki) ∧
    (let s := { pending 0x04#8 [.engine] with mge := ((withLens { fullLens with sres := 0#8 }).mge.accept 0x04#8) }
     isNext (step s) = true ∧ (after (step s)).mge.len.get .sres ≠ s.mge.len.get .sres) ∧
    (let s := { full with agenda := [.reset] }
     isNext (step s) = true ∧ (after (step s)).mge.len.get .kc ≠ s.mge.len.get .kc) := by decide +kernel
theorem witness_CmdWriteAcceptsWhenIdle : full.mge.pend = none ∧ (pending 0xFF#8 []).mge.pend ≠ none := by decide +kernel
theorem witness_FailedCommandChangesNoSlot : ∀ i ∈ [Instr.enc, .dopc, .eval, .fres, .fck, .gen, .genU],
    isNext (exec i State.reset) = true ∧ (after (exec i State.reset)).mge.err = true := by decide +kernel
/-- Every command succeeds in `full`; and the ends of the window are outside a command's results. -/
theorem witness_CommandWritesOnlyItsResults : (∀ i ∈ [Instr.enc, .dopc, .eval, .fres, .fck, .gen, .genU],
      isNext (exec i full) = true ∧ (after (exec i full)).mge.err = false) ∧
    (∀ a ∈ [0x00#8, 0x5F#8, 0x98#8, 0xFF#8], ∀ sl ∈ resultsOf .genU,
      a ≠ lenAddr sl ∧ ∀ j : Fin sl.cap, a ≠ dataAddr sl j.val) ∧
    (∀ a ∈ [0x00#8, 0x5F#8, 0x98#8, 0xFF#8], a ≠ 0xF1#8 ∧ a ≠ 0xF2#8 ∧ a ≠ 0xF3#8) := by decide +kernel
theorem witness_SuccessfulCommandCountsItsInvocations : ∀ i ∈ [Instr.enc, .dopc, .eval, .fres, .fck, .gen, .genU],
    isNext (exec i full) = true ∧ (after (exec i full)).mge.err = false := by decide +kernel
/-- A command that succeeds, one that fails a check, and one whose invocation fails. -/
theorem witness_CommandReportsOnlyItsErrors :
    isNext (exec .eval full) = true ∧ isNext (exec .eval State.reset) = true ∧
    (after (exec .eval (drawing [.ok, .ok, .fail]))).mge.errcode = 0x04#8 := by decide +kernel
/-- GEN.U in two states that differ in OP's bytes and in BLK. -/
theorem witness_OutcomeDependsOnOperandsOnly :
    let s' := withData { set1 with op := r2, blk := r1 }
    full.oracle = s'.oracle ∧ (∀ sl ∈ operandsOf .genU, full.mge.len.get sl = s'.mge.len.get sl) ∧
    (∀ sl ∈ dataOf .genU, full.mge.x.get sl = s'.mge.x.get sl) ∧ full.mge.x ≠ s'.mge.x ∧
    isNext (exec .genU full) = true ∧ isNext (exec .genU s') = true ∧ (after (exec .genU full)).mge.err = false := by
  decide +kernel
/-- A failed check; the first and the last invocation failing; and none failing. -/
theorem witness_CommandReportsItsFirstError :
    lengthError .enc State.reset.mge.len = some .invalidKeyLength ∧
    (lengthError .gen full.mge.len = none ∧ 0 < invocationsOf .gen ∧ (drawing [.fail]).oracle.allOk 0 ∧
      (drawing [.fail]).oracle.drawAt 0 = .fail) ∧
    (4 < invocationsOf .gen ∧ (drawing [.ok, .ok, .ok, .ok, .fail]).oracle.allOk 4 ∧
      (drawing [.ok, .ok, .ok, .ok, .fail]).oracle.drawAt 4 = .fail) ∧
    ((drawing [.ok, .ok, .ok, .ok, .ok]).oracle.allOk (invocationsOf .gen)) ∧
    ((pending 0xFF#8 []).turn = .engine ∧ (pending 0xFF#8 []).mge.pend = some 0xFF#8 ∧
      decode 0xFF#8 = .illegal 0xFF#8) := by
  unfold Oracle.allOk; decide +kernel
theorem witness_EncEncryptsTheBlock :
    full.mge.len.ki = 16#8 ∧ full.mge.len.blk = 16#8 ∧ full.oracle.allOk 1 := by
  unfold Oracle.allOk; decide +kernel
theorem witness_DopcDerivesTheOpc :
    full.mge.len.ki = 16#8 ∧ full.mge.len.op = 16#8 ∧ (drawing [.ok]).oracle.allOk 1 := by
  unfold Oracle.allOk; decide +kernel
theorem witness_EvalComputesMilenage :
    full.mge.len.ki = 16#8 ∧ full.mge.len.opc = 16#8 ∧ full.mge.len.rand = 16#8 ∧ full.oracle.allOk 4 := by
  unfold Oracle.allOk; decide +kernel
theorem witness_FresFoldsTheResponse : full.mge.len.res = 8#8 := by decide +kernel
theorem witness_FckFoldsTheKeys : full.mge.len.ck = 16#8 ∧ full.mge.len.ik = 16#8 := by decide +kernel
theorem witness_GenMakesTheTriplet :
    full.mge.len.ki = 16#8 ∧ full.mge.len.op = 16#8 ∧ full.mge.len.rand = 16#8 ∧ full.oracle.allOk 5 := by
  unfold Oracle.allOk; decide +kernel
theorem witness_GenUMakesTheTripletFromTheOpcSlot :
    full.mge.len.ki = 16#8 ∧ full.mge.len.op = 16#8 ∧ full.mge.len.rand = 16#8 ∧ full.mge.len.opc = 16#8 ∧
    full.oracle.allOk 4 := by
  unfold Oracle.allOk; decide +kernel
theorem witness_DopcIsEncXorOp :
    full.mge.x.blk = full.mge.x.op ∧ isNext (exec .dopc full) = true ∧ (after (exec .dopc full)).mge.err = false ∧
    isNext (exec .enc full) = true ∧ (after (exec .enc full)).mge.err = false := by decide +kernel
theorem witness_GenIsTheFourCommandsComposed :
    full.mge.len.ki = 16#8 ∧ full.mge.len.op = 16#8 ∧ full.mge.len.rand = 16#8 ∧ full.oracle.allOk 5 := by
  unfold Oracle.allOk; decide +kernel
theorem witness_GenUWithTheRightOpcEqualsGen :
    full.mge.opcDuty ∧ isNext (exec .genU full) = true ∧ (after (exec .genU full)).mge.err = false ∧
    isNext (exec .gen full) = true ∧ (after (exec .gen full)).mge.err = false := by
  unfold Mge.opcDuty; decide +kernel
theorem witness_FieldOperationsAgree : (0x01#8 : Byte) ≠ 0x00#8 ∧ (0xFF#8 : Byte) ≠ 0x00#8 := by decide
theorem witness_KeyScheduleFollowsTheRecurrence : (4 ≤ 4 ∧ 4 < 44 ∧ 4 % 4 = 0) ∧ (4 ≤ 43 ∧ 43 < 44 ∧ 43 % 4 ≠ 0) := by
  decide
theorem witness_RoundConstantsAreTheTable : 1 ≤ 1 ∧ 1 ≤ 9 := by decide
/-- A `jnz` each way, and a jump with and without a target. -/
theorem witness_HostStatementsFollowTheTable :
    let s := withVars [⟨none, .jmp "a"⟩, ⟨some "a", .wr 0xF0#8 0x01#8⟩] [(.named "h", 0x02#8)]
    s.host.get (.named "h") &&& 0x01#8 = 0#8 ∧ s.host.get (.named "h") &&& 0x02#8 ≠ 0#8 ∧
    s.host.target "a" = some 1 ∧ s.host.target "b" = none := by decide +kernel
theorem witness_PseudoInstructionsExpandByTheTable :
    ([] : List Byte).length ≤ 255 ∧ (List.replicate 255 (0x00#8 : Byte)).length ≤ 255 ∧
    255 < (List.replicate 256 (0x00#8 : Byte)).length ∧ 15 < min 16 (Slot.cap .ki) ∧ 3 < Slot.cap .sres := by
  decide +kernel

end Sys2Proof.Tests
end

section
/-! PROOFS. The byte operations of 00_scope.md section 5: XOR (R8) and rotation with the integer reading (R9 to R11). -/

namespace Sys2Proof.Machine

/-! ### XOR, R8 -/

/-- R8: XOR with the same operand twice changes nothing. -/
@[simp] theorem xorB_xorB_cancel_left {n : Nat} (a b : Bytes n) : xorB a (xorB a b) = b := by
  ext i hi : 1
  have hget := xorB_get a (xorB a b) ⟨i, hi⟩
  rw [xorB_get a b ⟨i, hi⟩, ← BitVec.xor_assoc, BitVec.xor_self, BitVec.zero_xor] at hget
  exact hget

/-! ### Rotation and the integer reading, R9 and R11 -/

/-- Dividing the integer reading of `n` bytes by `256^(n - k)` separates the first `k` bytes from the others. -/
theorem listInt_divMod (l : List Byte) (k : Nat) :
    listInt l / 256 ^ (l.length - k) = listInt (l.take k) ∧ listInt l % 256 ^ (l.length - k) = listInt (l.drop k) := by
  have hlow := listInt_lt (l.drop k)
  have hsplit := listInt_append (l.take k) (l.drop k)
  rw [List.length_drop] at hlow hsplit
  rw [List.take_append_drop] at hsplit
  rw [Nat.div_mod_unique (Nat.pow_pos (by decide)), hsplit, Nat.mul_comm, Nat.add_comm]
  exact ⟨rfl, hlow⟩

/-- R9 under R11: the bytes that leave at the most significant end come back at the least significant one, so the integer
reading is rotated left by `8k` bits. -/
theorem intOf_rotb (v : Block) (k : Nat) (hk : k < 16) :
    intOf (rotb v k) = intOf v % 2 ^ (128 - 8 * k) * 2 ^ (8 * k) + intOf v / 2 ^ (128 - 8 * k) := by
  have hlen : v.toList.length = 16 := Vector.length_toList
  have htake : (v.toList.take k).length = k := List.length_take_of_le (by omega)
  have hlow : 256 ^ k = 2 ^ (8 * k) := (pow_mul 2 8 k).symm
  have hhigh : 256 ^ (16 - k) = 2 ^ (128 - 8 * k) := by
    rw [show 128 - 8 * k = 8 * (16 - k) by omega]
    exact (pow_mul 2 8 (16 - k)).symm
  obtain ⟨hdiv, hmod⟩ := listInt_divMod v.toList k
  rw [hlen, hhigh] at hdiv hmod
  rw [intOf_eq, intOf_eq, rotb_toList v k hk, listInt_append, htake, hlow, hmod, hdiv]

/-! ### The statements -/

/-- Settles O53: the byte formulas are `rotb_get`, `flip_get_last` and `flip_get_other`; the rotations by 32 and 64 bits are
`intOf_rotb` at `k = 4` and `k = 8`. -/
theorem rotationIsTowardTheMostSignificantEnd : Obligations.RotationIsTowardTheMostSignificantEnd := by
  unfold Obligations.RotationIsTowardTheMostSignificantEnd
  exact ⟨rotb_get, intOf_rotb, fun v => intOf_rotb v 4 (by decide), fun v => intOf_rotb v 8 (by decide),
    fun v c => ⟨flip_get_last v c, flip_get_other v c⟩⟩

/-- Settles O52, byte by byte (`xorB_get`). -/
theorem xorIsBytewiseAndSelfInverse : Obligations.XorIsBytewiseAndSelfInverse := by
  unfold Obligations.XorIsBytewiseAndSelfInverse
  exact ⟨fun _ => xorB_get, fun _ => xorB_xorB_cancel_left⟩

end Sys2Proof.Machine
end

section
/-! PROOFS. The invariants of 10_state.md R34: at reset, and over the three agents' moves. -/

namespace Sys2Proof.Machine

/-! ### Each agent's move keeps R34 -/

/-- R34 at reset (R36): nothing is pending, no flag is set and no error is reported. -/
theorem inv_reset : Mge.reset.Inv := by
  constructor <;> decide

theorem HostMoved.inv {s t : State} (h : HostMoved s t) (hi : s.mge.Inv) : t.mge.Inv := by
  rcases h.mge with ⟨e, -⟩ | ⟨a, v, e, -⟩ <;> rw [e]
  · exact hi
  · exact inv_memWrite s.mge a v hi

/-- The engine's completion (R207) sets every field R34 speaks of, so it meets R34 whatever stood there before. -/
theorem inv_engineStep {s t : State} (h : s.engineStep = .next t) (hi : s.mge.Inv) : t.mge.Inv := by
  rcases engineStep_cases s t h with ⟨-, rfl⟩ | ⟨c, i, -, -, rfl⟩ | ⟨c, d, -, -, rfl⟩
  · exact hi
  · exact inv_complete _ _ ((runOf_calls_le i _ _).trans (invocationsOf_le i)) (runOf_errorFits i _ _)
  · exact inv_complete _ (.err .illegalCommand 0) (Nat.zero_le 5) (by simp [Run.errorFits])

/-- Where R34 holds, a pending command shows neither DONE nor ERR (R25). -/
theorem Mge.Inv.flags_of_pend {m : Mge} (h : m.Inv) (hp : m.pend ≠ none) : m.done = false ∧ m.err = false := by
  have hdone : m.done = false := h.idleOrNotDone.resolve_left hp
  refine ⟨hdone, ?_⟩
  by_contra herr
  simp [h.errDone (by simpa using herr)] at hdone

/-! ### The statements -/

/-- Settles O20, by the agent whose move the step is. -/
theorem stepKeepsTheInvariant : Obligations.StepKeepsTheInvariant := by
  unfold Obligations.StepKeepsTheInvariant
  intro s t hi hstep
  rcases step_cases s t hstep with ⟨-, hhost⟩ | ⟨-, hengine⟩ | ⟨-, rfl⟩
  · exact hhost.inv hi
  · exact inv_engineStep hengine hi
  · exact inv_reset

/-- Settles O19 (`inv_reset`). -/
theorem resetMeetsTheInvariant : Obligations.ResetMeetsTheInvariant := inv_reset

end Sys2Proof.Machine
end

section
/-! PROOFS. The completion step (60_exceptions.md R207) and what it leaves alone: the frame of a command (R85, R202)
and of the engine's move. -/

namespace Sys2Proof.Machine

/-! ### The completion of any run -/

@[simp] theorem complete_pend (m : Mge) (r : Run (List SlotWrite)) : (m.complete r).pend = none := by
  cases r <;> rfl

@[simp] theorem complete_ovr (m : Mge) (r : Run (List SlotWrite)) : (m.complete r).ovr = m.ovr := by
  cases r <;> simp

/-- After the engine's move nothing is pending, whatever the byte was (R31). -/
theorem engineStep_pend {s t : State} (h : s.engineStep = .next t) : t.mge.pend = none := by
  rcases engineStep_cases s t h with ⟨hidle, rfl⟩ | ⟨c, i, -, -, rfl⟩ | ⟨c, d, -, -, rfl⟩
  · exact hidle
  · exact complete_pend _ _
  · exact complete_pend _ _

/-- The engine's move leaves OVR alone (R213). -/
theorem engineStep_ovr {s t : State} (h : s.engineStep = .next t) : t.mge.ovr = s.mge.ovr := by
  rcases engineStep_cases s t h with ⟨-, rfl⟩ | ⟨c, i, -, -, rfl⟩ | ⟨c, d, -, -, rfl⟩
  · rfl
  · exact complete_ovr _ _
  · exact complete_ovr _ _

theorem endedErr_endErr (m : Mge) (e : Err) (n : Nat) : Mge.EndedErr m (m.endErr e n) e n :=
  ⟨rfl, rfl, rfl, rfl, rfl, rfl, rfl, rfl⟩

/-! ### The frame of a command -/

/-- R202: a command that failed changed no slot and no `len`. -/
theorem slots_of_exec_err {i : Instr} {s t : State} (h : exec i s = .next t) (he : t.mge.err = true) :
    t.mge.x = s.mge.x ∧ t.mge.len = s.mge.len := by
  obtain rfl := eq_finish_of_exec h
  rw [State.finish_mge] at he ⊢
  cases hr : runOf i s.mge s.oracle with
  | ok ws n => simp [hr] at he
  | err e n => exact ⟨rfl, rfl⟩

/-- Only the result slots of a command can change (R20's last column). -/
theorem keptBut_of_exec {i : Instr} {s t : State} (h : exec i s = .next t) :
    Mge.KeptBut (resultsOf i) s.mge t.mge := by
  intro sl hsl
  cases he : t.mge.err with
  | true =>
    obtain ⟨hx, hlen⟩ := slots_of_exec_err h he
    rw [hx, hlen]
    exact ⟨rfl, rfl⟩
  | false =>
    obtain ⟨-, -, hm⟩ := mge_of_exec_ok h he
    rw [hm, Mge.endOk_x, Mge.endOk_len]
    exact commit_other _ _ _ (by rwa [writesOf_slots])

/-- R21: a command that succeeded declares its results at their capacities. -/
theorem len_of_exec_ok {i : Instr} {s t : State} (h : exec i s = .next t) (he : t.mge.err = false) {sl : Slot}
    (hsl : sl ∈ resultsOf i) : t.mge.len.get sl = BitVec.ofNat 8 sl.cap := by
  obtain ⟨-, -, hm⟩ := mge_of_exec_ok h he
  rw [hm, Mge.endOk_len]
  exact commit_len _ _ _ (by rwa [writesOf_slots])

/-- A frame of slots is a frame of addresses: outside the slots `ss` and the three registers of a command's status, every
address reads as before (R50). -/
theorem Mge.KeptBut.memRead_eq {ss : List Slot} {m m' : Mge} (hk : Mge.KeptBut ss m m') {a : Byte}
    (hout : ∀ sl ∈ ss, a ≠ lenAddr sl ∧ ∀ j : Fin sl.cap, a ≠ dataAddr sl j.val)
    (hstatus : a ≠ 0xF1#8) (herrcode : a ≠ 0xF2#8) (hncalls : a ≠ 0xF3#8) : m'.memRead a = m.memRead a := by
  rw [Mge.memRead, Mge.memRead]
  cases hl : locate a with
  | data sl j =>
    have hsl : sl ∉ ss := fun hmem => (hout sl hmem).2 j (eq_of_locate hl rfl)
    rw [Mge.readLoc, Mge.readLoc, (hk sl hsl).1]
  | len sl =>
    have hsl : sl ∉ ss := fun hmem => (hout sl hmem).1 (eq_of_locate hl rfl)
    exact (hk sl hsl).2
  | cmd => rfl
  | status => exact absurd (eq_of_locate hl rfl) hstatus
  | errcode => exact absurd (eq_of_locate hl rfl) herrcode
  | ncalls => exact absurd (eq_of_locate hl rfl) hncalls
  | reserved => rfl

/-! ### Commands before any length is declared, R36 -/

/-- A command with a length error ends with it and makes no invocation (R203, R207). -/
theorem endedErr_of_lengthError {i : Instr} {s t : State} {e : Err} (hl : lengthError i s.mge.len = some e)
    (h : exec i s = .next t) : Mge.EndedErr s.mge t.mge e 0 := by
  obtain rfl := eq_finish_of_exec h
  rw [State.finish_mge, runOf_lengthError i s.mge s.oracle e hl]
  exact endedErr_endErr s.mge e 0

/-- Every command checks at least one length, and 0 is no slot's capacity. -/
theorem lengthError_zero (i : Instr) : ∃ e, lengthError i Lens.zero = some e := by
  cases i <;> exact ⟨_, rfl⟩

theorem slots_zero_get (sl : Slot) : Slots.zero.get sl = zeros sl.cap := by
  cases sl <;> rfl

theorem lens_zero_get (sl : Slot) : Lens.zero.get sl = 0#8 := by
  cases sl <;> rfl

/-! ### The statements -/

/-- Settles O37: the frame of slots, the declared results, and the frame of slots read as one of addresses. -/
theorem commandWritesOnlyItsResults : Obligations.CommandWritesOnlyItsResults := by
  unfold Obligations.CommandWritesOnlyItsResults
  exact fun i s t h => ⟨keptBut_of_exec h, fun he sl hsl => len_of_exec_ok h he hsl,
    fun a hout hstatus herrcode hncalls => (keptBut_of_exec h).memRead_eq hout hstatus herrcode hncalls⟩

/-- Settles O16: every register at reset, and every command's length check on the lengths 0. -/
theorem resetLeavesTheSpecValues : Obligations.ResetLeavesTheSpecValues := by
  unfold Obligations.ResetLeavesTheSpecValues
  refine ⟨fun sl i => ?_, lens_zero_get, rfl, rfl, rfl, rfl, rfl, rfl, fun i => ?_⟩
  · show (Slots.zero.get sl).get i = 0x00#8
    rw [slots_zero_get, zeros_get]
  · obtain ⟨e, he⟩ := lengthError_zero i
    exact ⟨e, _, he, exec_eq i State.reset, endedErr_of_lengthError he (exec_eq i State.reset)⟩

end Sys2Proof.Machine
end

section
/-! PROOFS. The window (20_memory.md R50 to R52): the slot map, STATUS, and what a host access can see and set. -/

namespace Sys2Proof.Machine

/-! ### The registers at 0xF0 and 0xF1 -/

/-- R206: a CMD write while idle accepts the command. -/
theorem memWrite_cmd_idle (m : Mge) (v : Byte) (h : m.pend = none) : m.memWrite 0xF0#8 v = m.accept v := by
  rw [Mge.memWrite, locate_cmd]
  simp [Mge.writeLoc, Mge.busy, h]

/-- R25: a STATUS write acts through its bit 3 alone. -/
theorem memWrite_status (m : Mge) (v : Byte) :
    m.memWrite 0xF1#8 v = if v.getLsbD 3 then m.clearOvr else m := by
  rw [Mge.memWrite, locate_status]
  rfl

theorem memRead_status (m : Mge) : m.memRead 0xF1#8 = m.status := by
  rw [Mge.memRead, locate_status]
  rfl

theorem memRead_lenAddr (m : Mge) (sl : Slot) : m.memRead (lenAddr sl) = m.len.get sl := by
  rw [Mge.memRead, locate_lenAddr]
  rfl

/-- R50: a data byte reads as stored, KI's as 0x00. -/
theorem memRead_dataAddr (m : Mge) (sl : Slot) (i : Fin sl.cap) :
    m.memRead (dataAddr sl i.val) = if sl = .ki then 0x00#8 else (m.x.get sl).get i := by
  rw [Mge.memRead, locate_dataAddr]
  rfl

/-- Four flags packed from bit 3 down to bit 0 of a byte come back as its bits, and bits 7:4 are 0 (R25). -/
theorem packedFlags_bits (ovr err done busy : Bool) :
    let b : Byte := (bitOf ovr ++ bitOf err ++ bitOf done ++ bitOf busy).setWidth 8
    b.getLsbD 0 = busy ∧ b.getLsbD 1 = done ∧ b.getLsbD 2 = err ∧ b.getLsbD 3 = ovr ∧ b.toNat < 16 := by
  revert ovr err done busy
  decide

/-- The bits of STATUS (R25). -/
theorem status_bits (m : Mge) :
    m.status.getLsbD 0 = m.busy ∧ m.status.getLsbD 1 = m.done ∧ m.status.getLsbD 2 = m.err ∧
    m.status.getLsbD 3 = m.ovr ∧ m.status.toNat < 16 :=
  packedFlags_bits m.ovr m.err m.done m.busy

/-! ### What no read can tell -/

/-- Whatever the place, a read shows nothing of KI's data (R23). -/
theorem readLoc_ki_irrelevant (m : Mge) (k : Block) (l : Loc) :
    Mge.readLoc { m with x := { m.x with ki := k } } l = m.readLoc l := by
  cases l with
  | data sl i => cases sl <;> rfl
  | len | cmd | status | errcode | ncalls | reserved => rfl

/-- Whatever the place, a read shows nothing of the pending byte but that there is one (R31). -/
theorem readLoc_pend_irrelevant (m : Mge) (c d : Byte) (l : Loc) :
    Mge.readLoc { m with pend := some c } l = Mge.readLoc { m with pend := some d } l := by
  cases l <;> rfl

/-- The host sees MGE through reads alone: on two states with one host and equal reads, a jump leaves equal hosts. -/
theorem hostJump_host_congr {s s' t t' : State} {l : String} (h : s.hostJump l = .next t)
    (h' : s'.hostJump l = .next t') (hh : s'.host = s.host) : t'.host = t.host := by
  unfold State.hostJump at h h'
  rw [hh] at h'
  cases hl : s.host.target l with
  | none => simp [hl] at h
  | some p =>
    simp only [hl, Host.Outcome.next.injEq] at h h'
    rw [← h, ← h']

/-- The host's part of a read depends on MGE through the byte read alone. -/
theorem hostRead_host_congr {s s' : State} (a : Byte) (f : HostAgent → Byte → HostAgent) (hh : s'.host = s.host)
    (hr : s'.mge.memRead a = s.mge.memRead a) : (s'.hostRead a f).host = (s.hostRead a f).host := by
  simp [hh, hr]

theorem hostWrite_host_congr {s s' : State} (a v : Byte) (hh : s'.host = s.host) :
    (s'.hostWrite a v).host = (s.hostWrite a v).host := by
  simp [State.hostWrite, hh]

/-- The same for a whole statement (R87). -/
theorem hostStmt_host_congr {s s' t t' : State} {st : HostStmt} (h : s.hostStmt st = .next t)
    (h' : s'.hostStmt st = .next t') (hh : s'.host = s.host) (hr : ∀ a, s'.mge.memRead a = s.mge.memRead a) :
    t'.host = t.host := by
  cases st with
  | wr a v => cases h; cases h'; exact hostWrite_host_congr a v hh
  | rd a v => cases h; cases h'; exact hostRead_host_congr a _ hh (hr a)
  | poll a m v => cases h; cases h'; exact hostRead_host_congr a _ hh (hr a)
  | jnz v m l =>
    simp only [State.hostStmt] at h h'
    rw [hh] at h'
    split at h
    next hz => rw [if_pos hz] at h'; cases h; cases h'; rfl
    next hz => rw [if_neg hz] at h'; exact hostJump_host_congr h h' hh
  | jmp l => exact hostJump_host_congr h h' hh
  | readWide a n =>
    simp only [State.hostStmt] at h h'
    split at h
    next hn => rw [if_pos hn] at h'; cases h; cases h'; exact hostRead_host_congr a _ hh (hr a)
    next => cases h
  | writeWide a n v =>
    simp only [State.hostStmt] at h h'
    split at h
    next hn => rw [if_pos hn] at h'; cases h; cases h'; exact hostWrite_host_congr a _ hh
    next => cases h

/-- And for a move of the host (R208). -/
theorem hostStep_host_congr {s s' t t' : State} (h : s.hostStep = .next t) (h' : s'.hostStep = .next t')
    (hh : s'.host = s.host) (hr : ∀ a, s'.mge.memRead a = s.mge.memRead a) : t'.host = t.host := by
  unfold State.hostStep at h h'
  rw [hh] at h'
  cases hl : s.host.line with
  | none =>
    simp only [hl, Host.Outcome.next.injEq] at h h'
    rw [← h, ← h', hh]
  | some line =>
    rw [hl] at h h'
    exact hostStmt_host_congr h h' hh hr

/-! ### The statements -/

/-- Settles O26: a read shows nothing of KI's data, and the host sees MGE through reads alone. -/
theorem kiDataCannotBeReadBack : Obligations.KiDataCannotBeReadBack := by
  unfold Obligations.KiDataCannotBeReadBack
  have hread (m : Mge) (k : Block) (a : Byte) :
      Mge.memRead { m with x := { m.x with ki := k } } a = m.memRead a := readLoc_ki_irrelevant m k (locate a)
  refine ⟨hread, fun s t t' k h h' => ?_⟩
  exact hostStep_host_congr h h' rfl (hread s.mge k)

/-- Settles O27: an idle write is `setByte` or `setLen`, and the read equations give what comes back. -/
theorem slotAccessFollowsTheRule : Obligations.SlotAccessFollowsTheRule := by
  unfold Obligations.SlotAccessFollowsTheRule
  refine ⟨fun m sl i v hidle => ?_, fun m sl v hidle => ?_, fun m i => ?_, fun m sl i hki => ?_⟩
  · rw [memWrite_data_idle m sl i v hidle, Mge.setByte_x, Slots.get_set_same]
    exact ⟨get_set_byte _ i v, fun j hj => get_set_byte_other _ i j v hj,
      fun sl' hsl => Slots.get_set_other _ _ _ _ hsl, rfl⟩
  · rw [memWrite_len_idle m sl v hidle, memRead_lenAddr]
    simp
  · exact memRead_dataAddr m .ki i
  · rw [memRead_dataAddr, if_neg hki]

/-- Settles O32: acceptance, completion, and the two things a read can show of PEND. -/
theorem pendingByteIsHidden : Obligations.PendingByteIsHidden := by
  unfold Obligations.PendingByteIsHidden
  refine ⟨fun m v hidle => ?_, fun s _ => ?_, fun m => ?_,
    fun m c d a => readLoc_pend_irrelevant m c d (locate a)⟩
  · rw [memWrite_cmd_idle m v hidle, Mge.accept_pend]
  · obtain ⟨t, ht⟩ := engineStep_next s
    exact ⟨t, ht, engineStep_pend ht⟩
  · rw [memRead_status, (status_bits m).1, busy_eq, Option.isSome_iff_ne_none]

/-- Settles O21: the bits are `status_bits`, the writes `memWrite_status`, the implications follow from R34. -/
theorem statusByteShowsTheFlags : Obligations.StatusByteShowsTheFlags := by
  unfold Obligations.StatusByteShowsTheFlags
  refine ⟨fun m => ?_, fun m v hv => ?_, fun m v hv => ?_, fun m hi => ⟨hi.errDone, fun hp => ?_⟩⟩
  · rw [memRead_status]
    exact status_bits m
  · rw [memWrite_status, if_pos hv]
    rfl
  · rw [memWrite_status, hv]
    rfl
  · exact hi.flags_of_pend (Option.isSome_iff_ne_none.1 hp)

/-- Settles O22: the table is closed, the addresses add modulo 256, and the map finds them (`locate_dataAddr`,
`locate_lenAddr`). -/
theorem slotMapIsTheTable : Obligations.SlotMapIsTheTable := by
  unfold Obligations.SlotMapIsTheTable
  refine ⟨by decide, fun sl i => ?_, locate_dataAddr, locate_lenAddr, locate_cmd, locate_status, locate_errcode,
    locate_ncalls⟩
  rw [dataAddr, dataAddr, Nat.add_zero, BitVec.ofNat_add]

end Sys2Proof.Machine
end

section
/-! PROOFS. Which events can set OVR (10_state.md R25) and which can change a `len` (R21). -/

namespace Sys2Proof.Machine

/-! ### The host write behind a change -/

/-- A host write sets OVR only where it is lost: at CMD, a `len` or a data byte, while a command is pending (R51). -/
theorem lost_of_memWrite_ovr {m : Mge} {a v : Byte} (h0 : m.ovr = false) (h1 : (m.memWrite a v).ovr = true) :
    m.pend ≠ none ∧
      (a = 0xF0#8 ∨ (∃ sl : Slot, a = lenAddr sl) ∨ ∃ (sl : Slot) (i : Fin sl.cap), a = dataAddr sl i.val) := by
  rcases memWrite_cases m a v with ⟨sl, i, -, -, e⟩ | ⟨sl, -, -, e⟩ | ⟨-, -, e⟩ | ⟨hloc, hbusy, -⟩ | ⟨-, -, e⟩ | e
  case inr.inr.inr.inl =>
    refine ⟨Option.isSome_iff_ne_none.1 hbusy, ?_⟩
    rcases hloc with ⟨sl, i, hl⟩ | ⟨sl, hl⟩ | hl
    · exact .inr (.inr ⟨sl, i, eq_of_locate hl rfl⟩)
    · exact .inr (.inl ⟨sl, eq_of_locate hl rfl⟩)
    · exact .inl (eq_of_locate hl rfl)
  all_goals simp [e, h0] at h1

/-- A host write changes `len[sl]` only at its own address and while idle, and then to the byte written (R21, R51). -/
theorem lenAddr_of_memWrite_len {m : Mge} {a v : Byte} {sl : Slot} (h : (m.memWrite a v).len.get sl ≠ m.len.get sl) :
    m.pend = none ∧ a = lenAddr sl ∧ (m.memWrite a v).len.get sl = v := by
  rcases memWrite_cases m a v with ⟨sl', i, -, -, e⟩ | ⟨sl', hl, hidle, e⟩ | ⟨-, -, e⟩ | ⟨-, -, e⟩ | ⟨-, -, e⟩ | e
  case inr.inl =>
    rw [e, Mge.setLen_len] at h ⊢
    obtain rfl : sl = sl' := by
      by_contra hne
      exact h (Lens.get_set_other _ _ _ _ hne)
    exact ⟨by simpa [Mge.busy] using hidle, eq_of_locate hl rfl, Lens.get_set_same _ _ _⟩
  all_goals simp [e] at h

/-! ### The engine's move behind a change -/

/-- The engine changes `len[sl]` only by completing, successfully, a command that writes slot `sl` (R21). -/
theorem result_of_engineStep_len {s t : State} {sl : Slot} (h : s.engineStep = .next t)
    (hne : t.mge.len.get sl ≠ s.mge.len.get sl) :
    t.mge.err = false ∧ t.mge.len.get sl = BitVec.ofNat 8 sl.cap ∧
      ∃ c i, s.mge.pend = some c ∧ decode c = .legal i ∧ sl ∈ resultsOf i := by
  rcases engineStep_cases s t h with ⟨-, rfl⟩ | ⟨c, i, hc, hd, rfl⟩ | ⟨c, d, -, -, rfl⟩
  · exact absurd rfl hne
  · have hexec := exec_eq i s
    have hsl : sl ∈ resultsOf i := by
      by_contra hout
      exact hne (keptBut_of_exec hexec sl hout).2
    have herr : (s.finish (runOf i s.mge s.oracle)).mge.err = false := by
      by_contra he
      exact hne (by rw [(slots_of_exec_err hexec (by simpa using he)).2])
    exact ⟨herr, len_of_exec_ok hexec herr hsl, c, i, hc, hd, hsl⟩
  · exact absurd rfl hne

/-! ### The statements -/

/-- Settles O31: the engine keeps OVR and reset clears it, so a host write set it. -/
theorem ovrIsSetOnlyByALostWrite : Obligations.OvrIsSetOnlyByALostWrite := by
  unfold Obligations.OvrIsSetOnlyByALostWrite
  intro s t h0 hstep h1
  rcases step_cases s t hstep with ⟨-, hhost⟩ | ⟨-, hengine⟩ | ⟨-, rfl⟩
  · rcases hhost.mge with ⟨e, -⟩ | ⟨a, v, e, htrace⟩
    · simp [e, h0] at h1
    · rw [e] at h1
      obtain ⟨hpend, haddr⟩ := lost_of_memWrite_ovr h0 h1
      exact ⟨hpend, a, v, htrace, haddr⟩
  · simp [engineStep_ovr hengine, h0] at h1
  · cases h1

/-- Settles O33, by the agent whose move the step is. -/
theorem lenChangesOnlyByThreeEvents : Obligations.LenChangesOnlyByThreeEvents := by
  unfold Obligations.LenChangesOnlyByThreeEvents
  intro s t sl hstep hne
  rcases step_cases s t hstep with ⟨hturn, hhost⟩ | ⟨hturn, hengine⟩ | ⟨hturn, -⟩
  · rcases hhost.mge with ⟨e, -⟩ | ⟨a, v, e, htrace⟩
    · exact absurd (by rw [e]; rfl) hne
    · rw [e] at hne ⊢
      obtain ⟨hidle, rfl, hv⟩ := lenAddr_of_memWrite_len hne
      exact .inl ⟨hturn, hidle, v, htrace, hv⟩
  · exact .inr (.inl ⟨hturn, result_of_engineStep_len (s := s.pop) hengine hne⟩)
  · exact .inr (.inr hturn)

end Sys2Proof.Machine
end

section
/-! PROOFS. The register window access by access (20_memory.md R50 to R57): what a read returns, what a write stores, where
the reserved addresses lie, and that a write is seen at its own address alone. -/

namespace Sys2Proof.Machine

/-! ### The reserved addresses, R53 -/

/-- R52, R53: the map leaves these four ranges, and no other address, reserved. -/
theorem locate_eq_reserved_iff (a : Byte) : locate a = .reserved ↔
    ((0x6C ≤ a.toNat ∧ a.toNat ≤ 0x6F) ∨ (0x98 ≤ a.toNat ∧ a.toNat ≤ 0x9F) ∨
      (0xAB ≤ a.toNat ∧ a.toNat ≤ 0xEF) ∨ 0xF4 ≤ a.toNat) := by
  revert a; decide +kernel

theorem memRead_reserved (m : Mge) {a : Byte} (h : locate a = .reserved) : m.memRead a = 0x00#8 := by
  rw [Mge.memRead, h]
  rfl

/-- A reserved write does not even set OVR, whether or not a command is pending. -/
theorem memWrite_reserved (m : Mge) {a : Byte} (v : Byte) (h : locate a = .reserved) : m.memWrite a v = m := by
  rw [Mge.memWrite, h]
  rfl

/-! ### Reads of the registers from 0xF0 to 0xF3, R50 -/

theorem memRead_cmd (m : Mge) : m.memRead 0xF0#8 = 0x00#8 := by
  rw [Mge.memRead, locate_cmd]
  rfl

theorem memRead_errcode (m : Mge) : m.memRead 0xF2#8 = m.errcode := by
  rw [Mge.memRead, locate_errcode]
  rfl

theorem memRead_ncalls (m : Mge) : m.memRead 0xF3#8 = m.ncalls := by
  rw [Mge.memRead, locate_ncalls]
  rfl

/-! ### Writes, idle and BUSY, R51 -/

theorem memWrite_dataAddr (m : Mge) (sl : Slot) (i : Fin sl.cap) (v : Byte) :
    m.memWrite (dataAddr sl i.val) v = if m.busy then m.overrun else m.setByte sl i v := by
  rw [Mge.memWrite, locate_dataAddr]
  rfl

theorem memWrite_lenAddr (m : Mge) (sl : Slot) (v : Byte) :
    m.memWrite (lenAddr sl) v = if m.busy then m.overrun else m.setLen sl v := by
  rw [Mge.memWrite, locate_lenAddr]
  rfl

theorem memWrite_cmd (m : Mge) (v : Byte) : m.memWrite 0xF0#8 v = if m.busy then m.overrun else m.accept v := by
  rw [Mge.memWrite, locate_cmd]
  rfl

theorem memWrite_errcode (m : Mge) (v : Byte) : m.memWrite 0xF2#8 v = m := by
  rw [Mge.memWrite, locate_errcode]
  rfl

theorem memWrite_ncalls (m : Mge) (v : Byte) : m.memWrite 0xF3#8 v = m := by
  rw [Mge.memWrite, locate_ncalls]
  rfl

/-! ### A write read back, R57 -/

/-- A byte's write is seen at no other place of the window. -/
theorem readLoc_setByte_other (m : Mge) (sl : Slot) (i : Fin sl.cap) (v : Byte) {l : Loc} (h : l ≠ .data sl i) :
    (m.setByte sl i v).readLoc l = m.readLoc l := by
  cases l with
  | data sl' j =>
    have hget : ((m.setByte sl i v).x.get sl').get j = (m.x.get sl').get j := by
      rw [Mge.setByte_x]
      by_cases hsl : sl' = sl
      · subst hsl
        have hj : j ≠ i := by
          rintro rfl
          exact h rfl
        rw [Slots.get_set_same, get_set_byte_other _ i j v hj]
      · rw [Slots.get_set_other _ _ _ _ hsl]
    rw [Mge.readLoc, Mge.readLoc, hget]
  | len | cmd | status | errcode | ncalls | reserved => rfl

/-- A length's write is seen at no other place of the window. -/
theorem readLoc_setLen_other (m : Mge) (sl : Slot) (v : Byte) {l : Loc} (h : l ≠ .len sl) :
    (m.setLen sl v).readLoc l = m.readLoc l := by
  cases l with
  | len sl' =>
    have hsl : sl' ≠ sl := by
      rintro rfl
      exact h rfl
    exact Lens.get_set_other _ _ _ _ hsl
  | data | cmd | status | errcode | ncalls | reserved => rfl

/-- While idle, a write to an address other than CMD and STATUS is seen at its own address alone: no two registers share
one. -/
theorem memRead_memWrite_other (m : Mge) {a b : Byte} (v : Byte) (hidle : m.pend = none) (hab : a ≠ b)
    (hcmd : a ≠ 0xF0#8) (hstatus : a ≠ 0xF1#8) : (m.memWrite a v).memRead b = m.memRead b := by
  rcases memWrite_cases m a v with ⟨sl, i, ha, -, e⟩ | ⟨sl, ha, -, e⟩ | ⟨ha, -, -⟩ | ⟨-, hbusy, -⟩ | ⟨ha, -, -⟩ | e
  · rw [e]
    exact readLoc_setByte_other m sl i v fun hb => hab ((eq_of_locate ha rfl).trans (eq_of_locate hb rfl).symm)
  · rw [e]
    exact readLoc_setLen_other m sl v fun hb => hab ((eq_of_locate ha rfl).trans (eq_of_locate hb rfl).symm)
  · exact absurd (eq_of_locate ha rfl) hcmd
  · simp [Mge.busy, hidle] at hbusy
  · exact absurd (eq_of_locate ha rfl) hstatus
  · rw [e]

/-! ### The host's statements, R56 and R87 -/

@[simp] theorem HostAgent.get_advance (h : HostAgent) (v : HVar) : h.advance.get v = h.get v := rfl

theorem hostStmt_wr (s : State) (a v : Byte) : s.hostStmt (.wr a v) = .next (s.hostWrite a v) := rfl

theorem hostStmt_rd (s : State) (a : Byte) (h : HVar) :
    s.hostStmt (.rd a h) = .next (s.hostRead a fun host b => (host.set h b).advance) := rfl

theorem hostStmt_readWide_one (s : State) (a : Byte) :
    s.hostStmt (.readWide a 1) = .next (s.hostRead a fun host _ => host.advance) := rfl

theorem hostStmt_writeWide_one (s : State) (a : Byte) (n : Nat) :
    s.hostStmt (.writeWide a 1 n) = .next (s.hostWrite a (BitVec.ofNat 8 n)) := rfl

theorem hostStmt_readWide_ne_one (s : State) (a : Byte) {n : Nat} (h : n ≠ 1) :
    s.hostStmt (.readWide a n) = .refused (.accessWidth n) := if_neg h

theorem hostStmt_writeWide_ne_one (s : State) (a : Byte) {n : Nat} (v : Nat) (h : n ≠ 1) :
    s.hostStmt (.writeWide a n v) = .refused (.accessWidth n) := if_neg h

/-! ### The statements -/

/-- Settles O28: an idle write is `setByte` or `setLen`, and `memRead_memWrite_other` gives every other address. -/
theorem writeThenReadBack : Obligations.WriteThenReadBack := by
  unfold Obligations.WriteThenReadBack
  refine ⟨fun m sl i v hidle hki => ?_, fun m sl v hidle => ?_, fun m a b v => memRead_memWrite_other m v⟩
  · rw [memWrite_data_idle m sl i v hidle, memRead_dataAddr, if_neg hki, Mge.setByte_x, Slots.get_set_same, get_set_byte]
  · rw [memWrite_len_idle m sl v hidle, memRead_lenAddr, Mge.setLen_len, Lens.get_set_same]

/-- Settles O13: the other widths are refused, and width 1 is the access `wr` and `rd` make. -/
theorem wideAccessIsRefused : Obligations.WideAccessIsRefused := by
  unfold Obligations.WideAccessIsRefused
  refine ⟨fun s a n => hostStmt_readWide_ne_one s a, fun s a n v => hostStmt_writeWide_ne_one s a v, fun s a v => ?_,
    fun s a => ⟨_, hostStmt_readWide_one s a, rfl, rfl⟩⟩
  rw [hostStmt_writeWide_one, hostStmt_wr, BitVec.ofNat_toNat, BitVec.setWidth_eq]

/-- Settles O23: one read equation per kind of address, and the variable read into holds the byte. -/
theorem hostReadReturnsTheTable : Obligations.HostReadReturnsTheTable := by
  unfold Obligations.HostReadReturnsTheTable
  refine ⟨fun m i => memRead_dataAddr m .ki i, fun m sl i hki => ?_, memRead_lenAddr,
    fun m => ⟨memRead_cmd m, memRead_status m, memRead_errcode m, memRead_ncalls m⟩,
    fun m a ha => memRead_reserved m ((locate_eq_reserved_iff a).2 ha), fun s a h => ⟨_, hostStmt_rd s a h, rfl, ?_⟩⟩
  · rw [memRead_dataAddr, if_neg hki]
  · rw [State.hostRead_host, HostAgent.get_advance, HostAgent.get_set]

/-- Settles O24: one write equation per kind of address, with `overrun`, `setByte`, `setLen`, `accept` and `clearOvr`
written out. -/
theorem hostWriteFollowsTheRule : Obligations.HostWriteFollowsTheRule := by
  unfold Obligations.HostWriteFollowsTheRule
  exact ⟨memWrite_dataAddr, memWrite_lenAddr, memWrite_cmd, memWrite_status,
    fun m v => ⟨memWrite_errcode m v, memWrite_ncalls m v⟩,
    fun m a v ha => memWrite_reserved m v ((locate_eq_reserved_iff a).2 ha)⟩

/-- Settles O25: the ranges are `locate_eq_reserved_iff`, whose last one ends with the window. -/
theorem reservedAddressesDoNothing : Obligations.ReservedAddressesDoNothing := by
  unfold Obligations.ReservedAddressesDoNothing
  refine ⟨fun a => ?_, fun m a v ha => ⟨memRead_reserved m ha, memWrite_reserved m v ha⟩,
    fun s a v h => ⟨⟨_, hostStmt_wr s a v⟩, ⟨_, hostStmt_rd s a h⟩⟩⟩
  have hlast : a.toNat ≤ 0xFF := Nat.le_of_lt_succ a.isLt
  rw [locate_eq_reserved_iff, and_iff_left hlast]

end Sys2Proof.Machine
end

section
/-! PROOFS. One agent's move a step (20_memory.md R57 and R59; 60_exceptions.md R207 and R208), and what a host move can do
to a pending command. -/

namespace Sys2Proof.Machine

/-! ### The host's move while a command is pending, R57 -/

/-- R234: a host write while a command is pending changes OVR at most. -/
theorem memWrite_pend (m : Mge) (a v : Byte) (h : m.pend ≠ none) :
    ∃ b : Bool, m.memWrite a v = { m with ovr := b } := by
  rcases memWrite_busy m a v (Option.isSome_iff_ne_none.2 h) with e | e | e
  · exact ⟨m.ovr, e⟩
  · exact ⟨true, e⟩
  · exact ⟨false, e⟩

/-! ### The engine's move, R207 -/

/-- R84: an illegal command carries the byte it was decoded from. -/
theorem eq_of_decode_illegal {c d : Byte} (h : decode c = .illegal d) : d = c := by
  unfold decode at h
  split_ifs at h
  exact (Command.illegal.inj h).symm

/-- The end of a command, whatever its run gave: it shows DONE, nothing is pending, and OVR and the host are as they were. -/
theorem finish_ended (s : State) (r : Run (List SlotWrite)) :
    (s.finish r).mge.pend = none ∧ (s.finish r).mge.done = true ∧ (s.finish r).mge.ovr = s.mge.ovr ∧
      (s.finish r).host = s.host := by
  refine ⟨complete_pend _ _, ?_, complete_ovr _ _, rfl⟩
  cases r <;> rfl

/-! ### The statements -/

/-- Settles O9, by the agent whose move the step is. -/
theorem everyStepIsOneAgentsMove : Obligations.EveryStepIsOneAgentsMove := by
  unfold Obligations.EveryStepIsOneAgentsMove
  intro s t hstep
  rcases step_cases s t hstep with ⟨hturn, hhost⟩ | ⟨hturn, hengine⟩ | ⟨hturn, rfl⟩
  · refine ⟨hhost.agenda, ?_⟩
    rcases hhost.mge with ⟨e, -⟩ | hwrite
    · exact .inl e
    · exact .inr (.inl ⟨hturn, hwrite⟩)
  · rcases engineStep_cases s.pop t hengine with ⟨-, rfl⟩ | ⟨c, i, hc, hd, rfl⟩ | ⟨c, d, hc, hd, rfl⟩
    · exact ⟨rfl, .inl rfl⟩
    · exact ⟨rfl, .inr (.inr (.inl ⟨hturn, ⟨c, hc, .inl ⟨i, hd, exec_eq i s.pop⟩⟩, finish_ended s.pop _⟩))⟩
    · obtain rfl := eq_of_decode_illegal hd
      exact ⟨rfl, .inr (.inr (.inl ⟨hturn, ⟨d, hc, .inr ⟨hd, rfl⟩⟩, finish_ended s.pop _⟩))⟩
  · exact ⟨rfl, .inr (.inr (.inr ⟨hturn, rfl, rfl⟩))⟩

/-- Settles O29: a host move is no write or one, and a write while BUSY changes OVR at most (`memWrite_pend`). -/
theorem hostCannotDisturbAPendingCommand : Obligations.HostCannotDisturbAPendingCommand := by
  unfold Obligations.HostCannotDisturbAPendingCommand
  intro s t hpend hhostTurn hstep
  rcases step_cases s t hstep with ⟨-, hhost⟩ | ⟨hturn, -⟩ | ⟨hturn, -⟩
  · rcases hhost.mge with ⟨e, -⟩ | ⟨a, v, e, -⟩
    · exact ⟨s.mge.ovr, e⟩
    · obtain ⟨b, hb⟩ := memWrite_pend s.mge a v hpend
      exact ⟨b, e.trans hb⟩
  · cases hhostTurn.symm.trans hturn
  · cases hhostTurn.symm.trans hturn

end Sys2Proof.Machine
end

section
/-! PROOFS. The command byte (30_encoding.md R80 to R84): the format's fields, the decoder as the inverse of the encoder,
and what becomes of an illegal byte (R83, R207). -/

namespace Sys2Proof.Machine

/-! ### The format CMD8, R80 -/

/-- R80: the fields laid out in a byte are read back from it. -/
@[simp] theorem ofByte_toByte (f : Cmd8) : Cmd8.ofByte f.toByte = f := by
  obtain ⟨opc4, u, z⟩ := f
  revert opc4 u z; decide +kernel

/-- R80: a byte is its fields put together. -/
@[simp] theorem toByte_ofByte (c : Byte) : (Cmd8.ofByte c).toByte = c := by
  revert c; decide +kernel

/-- R80 to R82: legal fields are those of a command. -/
theorem exists_fieldsOf_eq {f : Cmd8} (h : fieldsLegal f = true) : ∃ i, fieldsOf i = f := by
  have hlisted : ∀ (opc4 : BitVec 4) (u : BitVec 1) (z : BitVec 3), fieldsLegal ⟨opc4, u, z⟩ = true →
      ⟨opc4, u, z⟩ ∈ [Instr.enc, .dopc, .eval, .fres, .fck, .gen, .genU].map fieldsOf := by decide +kernel
  obtain ⟨i, -, hi⟩ := List.mem_map.1 (hlisted f.opc4 f.u f.z h)
  exact ⟨i, hi⟩

/-- `Laws.Shape` says its facts one command at a time; here they are for every command. -/
theorem shape_statement (i : Instr) : Laws.Shape.Statement i := by
  cases i
  exacts [Laws.Shape.enc, Laws.Shape.dopc, Laws.Shape.eval, Laws.Shape.fres, Laws.Shape.fck, Laws.Shape.gen,
    Laws.Shape.genU]

/-- R82: GEN.U alone has U = 1. -/
theorem encode_bit_four_iff (i : Instr) : (encode i).getLsbD 4 = true ↔ i = .genU := by
  cases i <;> decide

/-! ### The decoder and the encoder, R82 and R84 -/

@[simp] theorem decode_encode (i : Instr) : decode (encode i) = .legal i := by
  cases i <;> rfl

/-- R83: a byte that encodes no command is illegal. -/
theorem decode_of_ne_encode {c : Byte} (h : ∀ i, c ≠ encode i) : decode c = .illegal c :=
  (if_neg (h .enc)).trans <| (if_neg (h .dopc)).trans <| (if_neg (h .eval)).trans <| (if_neg (h .fres)).trans <|
    (if_neg (h .fck)).trans <| (if_neg (h .gen)).trans <| if_neg (h .genU)

/-- A byte decodes to a command exactly when it is that command's. -/
theorem decode_eq_legal_iff {c : Byte} {i : Instr} : decode c = .legal i ↔ encode i = c := by
  constructor
  · intro hd
    by_cases hc : ∃ j, c = encode j
    · obtain ⟨j, rfl⟩ := hc
      rw [decode_encode] at hd
      rw [Command.legal.inj hd]
    · rw [decode_of_ne_encode (not_exists.1 hc)] at hd
      cases hd
  · rintro rfl
    exact decode_encode i

/-- The seven bytes of R82 are the encodings. -/
theorem mem_commandBytes_iff (c : Byte) :
    c ∈ [0x01#8, 0x02#8, 0x03#8, 0x04#8, 0x05#8, 0x06#8, 0x16#8] ↔ ∃ i, encode i = c := by
  constructor
  · intro hc
    obtain ⟨i, -, hi⟩ : ∃ i ∈ [Instr.enc, .dopc, .eval, .fres, .fck, .gen, .genU], encode i = c := List.mem_map.1 hc
    exact ⟨i, hi⟩
  · rintro ⟨i, rfl⟩
    cases i <;> decide

/-- R83: every byte but the seven is illegal. -/
theorem decode_of_not_mem {c : Byte} (h : c ∉ [0x01#8, 0x02#8, 0x03#8, 0x04#8, 0x05#8, 0x06#8, 0x16#8]) :
    decode c = .illegal c :=
  decode_of_ne_encode fun i hi => h ((mem_commandBytes_iff c).2 ⟨i, hi.symm⟩)

/-! ### The completion of an illegal byte, R83 and R207 -/

theorem step_of_engine_turn {s : State} (h : s.turn = .engine) : step s = s.pop.engineStep := by
  rw [step, h]

theorem engineStep_of_illegal {s : State} {c d : Byte} (hp : s.mge.pend = some c) (hd : decode c = .illegal d) :
    s.engineStep = .next s.completeIllegal := by
  simp only [State.engineStep, hp, hd]

/-- A completion touches MGE and the draws alone. -/
theorem outsideKept_finish (s : State) (r : Run (List SlotWrite)) : State.OutsideKept s (s.finish r) :=
  ⟨rfl, rfl, rfl⟩

/-! ### The statements -/

/-- Settles O1: the seven bytes are encodings (`decode_encode`), and every other byte is illegal. -/
theorem decodeIsTheSpecTable : Obligations.DecodeIsTheSpecTable := by
  unfold Obligations.DecodeIsTheSpecTable
  exact ⟨decode_encode .enc, decode_encode .dopc, decode_encode .eval, decode_encode .fres, decode_encode .fck,
    decode_encode .gen, decode_encode .genU, fun _ => decode_of_not_mem⟩

/-- Settles O2: the legal bytes are the encodings, and GEN.U's alone has U = 1. -/
theorem exactlySevenLegalBytes : Obligations.ExactlySevenLegalBytes := by
  unfold Obligations.ExactlySevenLegalBytes
  refine ⟨fun c => ?_, by decide, fun c hu hlegal => ?_, by decide⟩
  · simp only [decode_eq_legal_iff, mem_commandBytes_iff]
  · obtain ⟨i, hi⟩ := hlegal
    obtain rfl := decode_eq_legal_iff.1 hi
    obtain rfl := (encode_bit_four_iff i).1 hu
    rfl

/-- Settles O3: fields and byte determine each other, and the legal fields are the commands'. -/
theorem commandFieldsFollowTheFormat : Obligations.CommandFieldsFollowTheFormat := by
  unfold Obligations.CommandFieldsFollowTheFormat
  refine ⟨fun i => ?_, fun c => ⟨?_, fun hlegal => ?_⟩, toByte_ofByte⟩
  · obtain ⟨hwf, hsmall, -, -⟩ := shape_statement i
    exact ⟨ofByte_toByte (fieldsOf i), hwf, encode_bit_four_iff i, Nat.div_eq_of_lt hsmall⟩
  · rintro ⟨i, hi⟩
    obtain rfl := decode_eq_legal_iff.1 hi
    obtain ⟨hwf, -, -, -⟩ := shape_statement i
    rwa [encode, ofByte_toByte]
  · obtain ⟨i, hi⟩ := exists_fieldsOf_eq hlegal
    exact ⟨i, decode_eq_legal_iff.2 (by rw [encode, hi, toByte_ofByte])⟩

/-- Settles O4: `decode_encode` and its converse. -/
theorem decodeInvertsEncode : Obligations.DecodeInvertsEncode := by
  unfold Obligations.DecodeInvertsEncode
  exact ⟨fun i _ => decode_encode i, fun _ _ => decode_eq_legal_iff.1⟩

/-- Settles O5: seven closed words, each run through the decoder. -/
theorem specWordsDecode : Obligations.SpecWordsDecode := by
  unfold Obligations.SpecWordsDecode
  decide

/-- Settles O7: the decoder refuses the byte, CMD takes it, and its completion is `Mge.endErr` of ILLEGAL_COMMAND. -/
theorem illegalByteEndsInIllegalCommand : Obligations.IllegalByteEndsInIllegalCommand := by
  unfold Obligations.IllegalByteEndsInIllegalCommand
  refine ⟨fun _ => decode_of_not_mem, memWrite_cmd_idle, fun s c hc hturn hpend => ?_⟩
  refine ⟨s.pop.completeIllegal, ?_, endedErr_endErr s.mge .illegalCommand 0, rfl, outsideKept_finish s.pop _⟩
  rw [step_of_engine_turn hturn]
  exact engineStep_of_illegal (s := s.pop) hpend (decode_of_not_mem hc)

end Sys2Proof.Machine
end

section
/-! PROOFS. The host program (30_encoding.md R87, R88): its statements one by one, the expansions of the
pseudo-instructions, and the form in which the host's variables are held. -/

namespace Sys2Proof.Machine

/-! ### The statements of R87 -/

theorem hostStmt_poll (s : State) (a m v : Byte) :
    s.hostStmt (.poll a m v) = .next (s.hostRead a fun host b => if b &&& m = v then host.advance else host) := rfl

theorem hostStmt_jnz_zero {s : State} {h : HVar} {m : Byte} (l : String) (hz : s.host.get h &&& m = 0#8) :
    s.hostStmt (.jnz h m l) = .next { s with host := s.host.advance } := if_pos hz

theorem hostStmt_jnz_nonzero {s : State} {h : HVar} {m : Byte} (l : String) (hz : s.host.get h &&& m ≠ 0#8) :
    s.hostStmt (.jnz h m l) = s.hostStmt (.jmp l) := if_neg hz

theorem hostStmt_jmp_of_target {s : State} {l : String} {p : Nat} (h : s.host.target l = some p) :
    s.hostStmt (.jmp l) = .next { s with host := { s.host with pos := p } } := by
  simp only [State.hostStmt, State.hostJump, h]

theorem hostStmt_jmp_of_no_target {s : State} {l : String} (h : s.host.target l = none) :
    s.hostStmt (.jmp l) = .fault (.undefinedLabel l) := by
  simp only [State.hostStmt, State.hostJump, h]

/-! ### The expansions of R88 -/

/-- The data writes of `load S, HEX`: one for each byte that has an address. -/
def loadWrites (sl : Slot) (hex : List Byte) : List HostStmt :=
  (List.range (min hex.length sl.cap)).map fun i => .wr (dataAddr sl i) (hex.getD i 0x00#8)

@[simp] theorem loadWrites_length (sl : Slot) (hex : List Byte) :
    (loadWrites sl hex).length = min hex.length sl.cap := by
  simp [loadWrites]

theorem loadWrites_getElem? (sl : Slot) (hex : List Byte) {i : Nat} (h : i < min hex.length sl.cap) :
    (loadWrites sl hex)[i]? = (hex[i]?).map fun b => .wr (dataAddr sl i) b := by
  have hlen : i < hex.length := h.trans_le (min_le_left _ _)
  simp [loadWrites, h, hlen]

theorem expandLoad_of_le (sl : Slot) {hex : List Byte} (h : hex.length ≤ 255) :
    expandLoad sl hex = some (loadWrites sl hex ++ [.wr (lenAddr sl) (BitVec.ofNat 8 hex.length)]) := if_pos h

theorem expandLoad_of_gt (sl : Slot) {hex : List Byte} (h : 255 < hex.length) : expandLoad sl hex = none :=
  if_neg (Nat.not_le.2 h)

@[simp] theorem expandRead_length (sl : Slot) : (expandRead sl).length = sl.cap := by
  simp [expandRead]

theorem expandRead_getElem? (sl : Slot) {i : Nat} (h : i < sl.cap) :
    (expandRead sl)[i]? = some (.rd (dataAddr sl i) (.slotByte sl i)) := by
  simp [expandRead, h]

/-! ### The host's variables -/

/-- Each host variable stands once in the list (log entry 3). -/
def HostAgent.VarsDistinct (h : HostAgent) : Prop := (h.vars.map (·.1)).Nodup

/-- Setting a variable takes its old entry away, so it still stands once. -/
theorem HostAgent.VarsDistinct.set {h : HostAgent} (hd : h.VarsDistinct) (v : HVar) (b : Byte) :
    (h.set v b).VarsDistinct := by
  have hnew : v ∉ (h.vars.filter fun p => p.1 != v).map (·.1) := by simp
  have hold : ((h.vars.filter fun p => p.1 != v).map (·.1)).Nodup := hd.sublist (List.filter_sublist.map _)
  exact List.nodup_cons.2 ⟨hnew, hold⟩

/-- A statement leaves the variables as they are, or sets one (R87: `rd` alone does). -/
theorem hostStmt_vars {s t : State} {st : HostStmt} (h : s.hostStmt st = .next t) :
    t.host.vars = s.host.vars ∨ ∃ v b, t.host.vars = (s.host.set v b).vars := by
  have hjmp {l : String} (hj : s.hostStmt (.jmp l) = .next t) : t.host.vars = s.host.vars := by
    cases hl : s.host.target l with
    | none => rw [hostStmt_jmp_of_no_target hl] at hj; cases hj
    | some p => rw [hostStmt_jmp_of_target hl] at hj; cases hj; rfl
  cases st with
  | wr a v => cases h; exact .inl rfl
  | rd a v => cases h; exact .inr ⟨v, s.mge.memRead a, rfl⟩
  | poll a m v =>
    cases h
    refine .inl ?_
    rw [State.hostRead_host]
    split <;> rfl
  | jnz v m l =>
    by_cases hz : s.host.get v &&& m = 0#8
    · rw [hostStmt_jnz_zero l hz] at h; cases h; exact .inl rfl
    · rw [hostStmt_jnz_nonzero l hz] at h; exact .inl (hjmp h)
  | jmp l => exact .inl (hjmp h)
  | readWide a n =>
    by_cases hn : n = 1
    · subst hn; cases h; exact .inl rfl
    · rw [hostStmt_readWide_ne_one s a hn] at h; cases h
  | writeWide a n v =>
    by_cases hn : n = 1
    · subst hn; cases h; exact .inl rfl
    · rw [hostStmt_writeWide_ne_one s a v hn] at h; cases h

/-- The host's move keeps its variables distinct (R208). -/
theorem varsDistinct_hostStep {s t : State} (h : s.hostStep = .next t) (hd : s.host.VarsDistinct) :
    t.host.VarsDistinct := by
  unfold State.hostStep at h
  split at h
  next => cases h; exact hd
  next line _ =>
    rcases hostStmt_vars h with e | ⟨v, b, e⟩ <;> rw [HostAgent.VarsDistinct, e]
    · exact hd
    · exact hd.set v b

/-- The engine's move leaves the host alone (R207). -/
theorem engineStep_host {s t : State} (h : s.engineStep = .next t) : t.host = s.host := by
  rcases engineStep_cases s t h with ⟨-, rfl⟩ | ⟨c, i, -, -, rfl⟩ | ⟨c, d, -, -, rfl⟩ <;> rfl

/-! ### The statements -/

/-- Settles O15, by the agent whose move the step is. -/
theorem stepKeepsTheHostVariablesDistinct : Obligations.StepKeepsTheHostVariablesDistinct := by
  unfold Obligations.StepKeepsTheHostVariablesDistinct
  intro s t hd hstep
  unfold step at hstep
  split at hstep
  next => exact varsDistinct_hostStep hstep hd
  next => rwa [engineStep_host hstep]
  next => cases hstep; exact hd

/-- Settles O59: one equation per statement, and for `jnz` and `jmp` one per outcome. -/
theorem hostStatementsFollowTheTable : Obligations.HostStatementsFollowTheTable := by
  unfold Obligations.HostStatementsFollowTheTable
  refine ⟨fun s a v => ⟨_, hostStmt_wr s a v, rfl, rfl, rfl⟩,
    fun s a h => ⟨_, hostStmt_rd s a h, rfl, ?_, rfl, rfl⟩,
    fun s a m v => ⟨_, hostStmt_poll s a m v, rfl, ?_⟩,
    fun s h m l hz => ⟨_, hostStmt_jnz_zero l hz, rfl, rfl, rfl⟩,
    fun s h m l hz => hostStmt_jnz_nonzero l hz,
    fun s l p hp => ⟨_, hostStmt_jmp_of_target hp, rfl, rfl, rfl⟩,
    fun s l hl => hostStmt_jmp_of_no_target hl⟩
  · rw [State.hostRead_host, HostAgent.get_advance, HostAgent.get_set]
  · rw [State.hostRead_host]
    split <;> exact ⟨rfl, rfl⟩

/-- Settles O60: each pseudo-instruction unfolds to its list, and `load` and `read` are read entry by entry. -/
theorem pseudoInstructionsExpandByTheTable : Obligations.PseudoInstructionsExpandByTheTable := by
  unfold Obligations.PseudoInstructionsExpandByTheTable
  refine ⟨fun _ => rfl, rfl, fun sl hex hle => ⟨_, expandLoad_of_le sl hle, by simp, fun i hi => ?_, ?_⟩,
    fun sl _ hgt => expandLoad_of_gt sl hgt, fun _ _ => rfl,
    fun sl => ⟨_, rfl, expandRead_length sl, fun i hi => expandRead_getElem? sl hi⟩, rfl, fun _ => rfl⟩
  · rw [List.getElem?_append_left (by rwa [loadWrites_length]), loadWrites_getElem? sl hex hi]
  · rw [← loadWrites_length sl hex, List.getElem?_concat_length]

end Sys2Proof.Machine
end

section
/-! PROOFS. A command's outcome is a function of the lengths it checks, the data it reads and the draws
(30_encoding.md R85; 43_milenage.md R165; 45_triplet.md R190). -/

namespace Sys2Proof.Machine

/-- The length checks look at the operands' lengths alone (R203). -/
theorem lengthError_congr {i : Instr} {l l' : Lens} (h : ∀ sl ∈ operandsOf i, l.get sl = l'.get sl) :
    lengthError i l = lengthError i l' := by
  cases i <;> simp only [operandsOf, List.forall_mem_cons, Lens.get] at h <;> simp only [lengthError, h]

/-- A command's writes come from the bytes it reads alone (R85; R190: GEN.U reads none of OP's). -/
theorem writesOf_congr {i : Instr} {x x' : Slots} (h : ∀ sl ∈ dataOf i, x.get sl = x'.get sl) :
    writesOf i x = writesOf i x' := by
  cases i <;> simp only [dataOf, List.forall_mem_cons, Slots.get] at h <;> simp only [writesOf, h]

/-- The status a completion leaves is its run's, whatever stood there before (R207). -/
theorem complete_status_congr (m m' : Mge) (r : Run (List SlotWrite)) :
    (m.complete r).err = (m'.complete r).err ∧ (m.complete r).errcode = (m'.complete r).errcode ∧
      (m.complete r).ncalls = (m'.complete r).ncalls := by
  cases r <;> exact ⟨rfl, rfl, rfl⟩

/-- Settles O40: the two states have one run, so they end with one status; and a success writes what the operands give. -/
theorem outcomeDependsOnOperandsOnly : Obligations.OutcomeDependsOnOperandsOnly := by
  unfold Obligations.OutcomeDependsOnOperandsOnly
  intro i s s' t t' ho hlens hdata h h'
  have hwrites : writesOf i s.mge.x = writesOf i s'.mge.x := writesOf_congr hdata
  have hrun : runOf i s.mge s.oracle = runOf i s'.mge s'.oracle := by
    rw [← ho]
    exact runOf_congr i _ _ _ (lengthError_congr hlens) hwrites
  obtain ⟨herr, hcode, hcalls⟩ : t.mge.err = t'.mge.err ∧ t.mge.errcode = t'.mge.errcode ∧
      t.mge.ncalls = t'.mge.ncalls := by
    rw [eq_finish_of_exec h, eq_finish_of_exec h', State.finish_mge, State.finish_mge, hrun]
    exact complete_status_congr _ _ _
  refine ⟨herr, hcode, hcalls, fun hok sl hsl => ?_⟩
  obtain ⟨-, -, hm⟩ := mge_of_exec_ok h hok
  obtain ⟨-, -, hm'⟩ := mge_of_exec_ok h' (herr ▸ hok)
  rw [hm, hm', Mge.endOk_x, Mge.endOk_x, hwrites]
  exact commit_get_congr _ _ _ _ (by rwa [writesOf_slots])

end Sys2Proof.Machine
end

section
/-! PROOFS. How a command ends (60_exceptions.md R203, R207): its first failing invocation (R101), its success with the writes
it commits, and ENC (40_cipher_adapter.md R103). -/

namespace Sys2Proof.Machine

/-! ### What the draws and the lengths make of a run -/

/-- The first draw that fails ends a command with the number of its invocation (R101, R104). -/
theorem runOf_fail (i : Instr) (m : Mge) (o : Oracle) {n : Nat} (hl : lengthError i m.len = none)
    (hn : n < invocationsOf i) (hbefore : o.allOk n) (hfail : o.drawAt n = .fail) :
    runOf i m o = .err .cipherFailure (n + 1) := by
  rcases runOf_cases i m o with ⟨e, he, -⟩ | ⟨-, k, -, hfail', hbefore', hrun⟩ | ⟨-, hok, -⟩
  · simp [hl] at he
  · rcases Nat.lt_trichotomy n k with hlt | rfl | hlt
    · simp [hbefore' n hlt] at hfail
    · exact hrun
    · simp [hbefore k hlt] at hfail'
  · simp [hok n hn] at hfail

/-- A command with its lengths right and its draws ok commits its writes and ends well (R207). -/
theorem exec_ok (i : Instr) (s : State) (hl : lengthError i s.mge.len = none) (ho : s.oracle.allOk (invocationsOf i)) :
    exec i s = .next (s.finish (.ok (writesOf i s.mge.x) (invocationsOf i))) := by
  rw [exec_eq, runOf_ok i s.mge s.oracle hl ho]

theorem endedOk_complete_ok (m : Mge) (ws : List SlotWrite) (n : Nat) : Mge.EndedOk m (m.complete (.ok ws n)) n :=
  ⟨rfl, rfl, rfl, rfl, rfl, commit_ovr m ws⟩

/-! ### The statements -/

/-- Settles O41, by what the command's run is in each of R203's cases; an illegal byte has one completion whatever the
lengths and draws are. -/
theorem commandReportsItsFirstError : Obligations.CommandReportsItsFirstError := by
  unfold Obligations.CommandReportsItsFirstError
  refine ⟨fun i s e hl => ?_, fun i s n hl hn hbefore hfail => ?_, fun i s hl ho => ?_, fun s c d hturn hpend hd => ?_⟩
  · exact ⟨_, exec_eq i s, endedErr_of_lengthError hl (exec_eq i s), outsideKept_finish s _⟩
  · refine ⟨_, exec_eq i s, ?_, outsideKept_finish s _⟩
    rw [State.finish_mge, runOf_fail i s.mge s.oracle hl hn hbefore hfail]
    exact endedErr_endErr s.mge .cipherFailure (n + 1)
  · exact ⟨_, exec_ok i s hl ho, endedOk_complete_ok s.mge _ _, outsideKept_finish s _⟩
  · exact ⟨s.pop.completeIllegal, (step_of_engine_turn hturn).trans (engineStep_of_illegal (s := s.pop) hpend hd),
      endedErr_endErr s.mge .illegalCommand 0⟩

/-- Settles O42: ENC passes its checks and its draw, so it commits its one write, to OUT. -/
theorem encEncryptsTheBlock : Obligations.EncEncryptsTheBlock := by
  unfold Obligations.EncEncryptsTheBlock
  intro s hki hblk ho
  have hl : lengthError .enc s.mge.len = none := by simp [lengthError, hki, hblk]
  have hexec := exec_ok .enc s hl ho
  exact ⟨_, hexec, rfl, rfl, keptBut_of_exec hexec, endedOk_complete_ok s.mge _ _, outsideKept_finish s _⟩

end Sys2Proof.Machine
end

section
/-! PROOFS. AES-128 encryption (41_aes128.md): the field operations and the S-box (R122, R123), the state array and its rounds
(R120, R121, R124 to R126), the key schedule (R127, R128). -/

namespace Sys2Proof.Machine

/-! ### The field operations and the S-box, R122 and R123 -/

/-- R122: 0x02 has the one coefficient of `x`, so the product is one doubling. -/
theorem gfMul_two_right (a : Byte) : gfMul a 0x02#8 = xtime a := by
  have hbits : ((List.range 8).map fun k => (0x02#8 : Byte).getLsbD k) =
      [false, true, false, false, false, false, false, false] := by decide
  simp [gfMul, hbits, gfMulBits]

/-- R122: 0x03 has the coefficients of 1 and `x`, so the product is `a` and its double. -/
theorem gfMul_three_right (a : Byte) : gfMul a 0x03#8 = xtime a ^^^ a := by
  have hbits : ((List.range 8).map fun k => (0x03#8 : Byte).getLsbD k) =
      [true, true, false, false, false, false, false, false] := by decide
  simp [gfMul, hbits, gfMulBits, BitVec.xor_comm]

/-- R122 and R123 at each of the 256 bytes: the table is the formula, and the power 254 is the inverse. Both stand in one
check, so that the kernel works out each inverse once. -/
theorem sbox_eq_and_gfMul_gfInv (a : Byte) :
    sbox a = sboxFormula a ∧ (a ≠ 0x00#8 → gfMul a (gfInv a) = 0x01#8) := by
  revert a; decide +kernel

/-! ### The state array and the round steps, R121 and R123 to R126 -/

@[simp] theorem entry_toAesState (b : Block) (r c : Fin 4) :
    entry (toAesState b) r c = b.get ⟨r.val + 4 * c.val, by omega⟩ := by
  simp [toAesState, Vector.get_eq_getElem]

/-- R121 by the place in the block: byte `i` stands in row `i mod 4` of column `i / 4`. -/
theorem fromAesState_get (st : AesState) (i : Fin 16) :
    (fromAesState st).get i = entry st ⟨i.val % 4, by omega⟩ ⟨i.val / 4, by omega⟩ := by
  simp [fromAesState, Vector.get_eq_getElem]

/-- R121 by the place in the array. -/
theorem fromAesState_get_entry (st : AesState) (r c : Fin 4) :
    (fromAesState st).get ⟨r.val + 4 * c.val, by omega⟩ = entry st r c := by
  have hrow : (r.val + 4 * c.val) % 4 = r.val := by omega
  have hcol : (r.val + 4 * c.val) / 4 = c.val := by omega
  simp only [fromAesState_get, hrow, hcol]

theorem fromAesState_toAesState (b : Block) : fromAesState (toAesState b) = b := by
  ext i hi : 1
  have hplace : i % 4 + 4 * (i / 4) = i := Nat.mod_add_div i 4
  have hget := fromAesState_get (toAesState b) ⟨i, hi⟩
  simp only [entry_toAesState, hplace] at hget
  exact hget

@[simp] theorem entry_subBytes (st : AesState) (r c : Fin 4) : entry (subBytes st) r c = sbox (entry st r c) :=
  entry_mkState _ r c

@[simp] theorem entry_shiftRows (st : AesState) (r c : Fin 4) : entry (shiftRows st) r c = entry st r (c + r) :=
  entry_mkState _ r c

@[simp] theorem entry_mixColumns (st : AesState) (r c : Fin 4) :
    entry (mixColumns st) r c = mixColumn (fun k => entry st k c) r :=
  entry_mkState _ r c

@[simp] theorem entry_addRoundKey (st : AesState) (w : List KeyWord) (rd : Nat) (r c : Fin 4) :
    entry (addRoundKey st w rd) r c = entry st r c ^^^ (w.getD (4 * rd + c.val) (zeros 4)).get r :=
  entry_mkState _ r c

/-! ### The rounds, R120 -/

/-- The state after the first `n` whole rounds from `st` with the key words `w`. -/
def afterRounds (w : List KeyWord) (st : AesState) : Nat → AesState
  | 0 => st
  | n + 1 => aesRound w (afterRounds w st n) (n + 1)

/-- Running the rounds `1..n` in order is `afterRounds`. -/
theorem foldl_aesRound (w : List KeyWord) (st : AesState) (n : Nat) :
    (List.range' 1 n).foldl (aesRound w) st = afterRounds w st n := by
  induction n with
  | zero => rfl
  | succ n ih =>
    rw [List.range'_1_concat, List.foldl_concat, ih, Nat.add_comm 1 n]
    rfl

/-- R120: `E` is the first key added, nine whole rounds, and a tenth without `MixColumns`. -/
theorem E_eq_afterRounds (key block : Block) :
    E key block =
      fromAesState (addRoundKey
        (shiftRows (subBytes (afterRounds (keyExpansion key) (addRoundKey (toAesState block) (keyExpansion key) 0) 9)))
        (keyExpansion key) 10) := by
  rw [E]
  generalize keyExpansion key = w
  rw [← foldl_aesRound]
  rfl

/-! ### The key schedule, R127 and R128 -/

theorem keyExpansion_length (key : Block) : (keyExpansion key).length = 44 := by
  rw [keyExpansion, List.length_reverse, keyWordsRev_length]

/-- Word `i` of the schedule is already word `i` of any first `n + 4` that hold it. -/
theorem keyExpansion_getD_of_prefix (key : Block) {i n : Nat} (hi : i < n + 4) (hn : n ≤ 40) :
    (keyExpansion key).getD i (zeros 4) = (keyWordsRev key n).getD (n + 3 - i) (zeros 4) := by
  rw [keyExpansion_getD key i (by omega), keyWordsRev_getD key n i hi 40 hn]

/-- R127: the first four words are the key's bytes, four by four. -/
theorem keyExpansion_getD_key (key : Block) (i j : Fin 4) :
    ((keyExpansion key).getD i.val (zeros 4)).get j = key.get ⟨4 * i.val + j.val, by omega⟩ := by
  rw [keyExpansion_getD_of_prefix key (n := 0) i.isLt (by decide)]
  fin_cases i <;> fin_cases j <;> rfl

/-- R127: each later word is made from the words before it. -/
theorem keyExpansion_getD_next (key : Block) {n : Nat} (hn : n < 40) :
    (keyExpansion key).getD (n + 4) (zeros 4) = nextKeyWord (keyWordsRev key n) (n + 4) := by
  rw [keyExpansion_getD_of_prefix key (n := n + 1) (by omega) hn, show n + 1 + 3 - (n + 4) = 0 by omega]
  rfl

/-- R127's operations by bytes, from the newest word `t` and the fourth newest `u`. -/
theorem nextKeyWord_eq {prev : List KeyWord} {t u : KeyWord} (i : Nat) (ht : t = prev.getD 0 (zeros 4))
    (hu : u = prev.getD 3 (zeros 4)) :
    nextKeyWord prev i =
      xorB u (if i % 4 = 0 then #v[sbox t[1] ^^^ rcon (i / 4), sbox t[2], sbox t[3], sbox t[0]] else t) := by
  subst ht hu
  rfl

/-- R128: each constant is the double of the one before it. -/
theorem rcon_succ {j : Nat} (hj : 1 ≤ j) : rcon (j + 1) = xtime (rcon j) := by
  obtain ⟨k, rfl⟩ := Nat.exists_eq_add_of_le' hj
  exact Function.iterate_succ_apply' xtime k 0x01#8

/-! ### The statements -/

/-- Settles O56: one entry equation per step, R125's factors by `gfMul_two` and `gfMul_three`, and the rounds by
`E_eq_afterRounds`. -/
theorem cipherRunsItsRoundsOnTheStateArray : Obligations.CipherRunsItsRoundsOnTheStateArray := by
  unfold Obligations.CipherRunsItsRoundsOnTheStateArray
  refine ⟨entry_toAesState, fromAesState_get_entry, fromAesState_toAesState, entry_shiftRows, fun st c => ?_,
    entry_addRoundKey, fun key block => ⟨afterRounds _ _, rfl, fun _ _ => rfl, E_eq_afterRounds key block⟩⟩
  simp only [entry_mixColumns, gfMul_two, gfMul_three]
  exact ⟨rfl, rfl, rfl, rfl⟩

/-- Settles O57: word `n + 4` is made from the first `n + 4` words, whose newest and fourth newest are words `n + 3` and `n`. -/
theorem keyScheduleFollowsTheRecurrence : Obligations.KeyScheduleFollowsTheRecurrence := by
  unfold Obligations.KeyScheduleFollowsTheRecurrence
  refine fun key => ⟨keyExpansion_length key, keyExpansion_getD_key key, fun i hi hlt => ?_⟩
  obtain ⟨n, rfl⟩ := Nat.exists_eq_add_of_le' hi
  have hn : n < 40 := by omega
  have hnewest := keyExpansion_getD_of_prefix key (i := n + 3) (n := n) (by omega) hn.le
  have hfourth := keyExpansion_getD_of_prefix key (i := n) (n := n) (by omega) hn.le
  rw [Nat.sub_self] at hnewest
  rw [Nat.add_sub_cancel_left] at hfourth
  simp only [Nat.add_sub_cancel, show n + 4 - 1 = n + 3 from rfl]
  rw [keyExpansion_getD_next key hn]
  exact nextKeyWord_eq (n + 4) hnewest hfourth

/-- Settles O54: the entry equation of `SubBytes`, and the table against the formula. -/
theorem sboxTableIsTheFormula : Obligations.SboxTableIsTheFormula := by
  unfold Obligations.SboxTableIsTheFormula
  exact ⟨entry_subBytes, fun a => (sbox_eq_and_gfMul_gfInv a).1⟩

/-- Settles O55: the products by 0x02 and 0x03 for every byte, and the inverse. -/
theorem fieldOperationsAgree : Obligations.FieldOperationsAgree := by
  unfold Obligations.FieldOperationsAgree
  exact ⟨gfMul_two_right, gfMul_three_right, fun a => (sbox_eq_and_gfMul_gfInv a).2, by decide⟩

/-- Settles O58: ten closed values, and the recurrence `rcon_succ`. -/
theorem roundConstantsAreTheTable : Obligations.RoundConstantsAreTheTable := by
  unfold Obligations.RoundConstantsAreTheTable
  exact ⟨by decide, fun _ => rcon_succ⟩

end Sys2Proof.Machine
end

section
/-! PROOFS. DOPC (42_opc.md R150, R151): the OPC it derives, and the same bytes from ENC. -/

namespace Sys2Proof.Machine

/-! ### What a success leaves in the result slot -/

/-- R151: a success commits the one write `opcOf`. -/
theorem opc_of_exec_dopc_ok {s t : State} (h : exec .dopc s = .next t) (he : t.mge.err = false) :
    t.mge.x.opc = xorB (E s.mge.x.ki s.mge.x.op) s.mge.x.op := by
  obtain ⟨-, -, hm⟩ := mge_of_exec_ok h he
  rw [hm]
  rfl

/-- R103: a success commits the one write to OUT. -/
theorem out_of_exec_enc_ok {s t : State} (h : exec .enc s = .next t) (he : t.mge.err = false) :
    t.mge.x.out = E s.mge.x.ki s.mge.x.blk := by
  obtain ⟨-, -, hm⟩ := mge_of_exec_ok h he
  rw [hm]
  rfl

/-! ### The statements -/

/-- Settles O49, by what each success leaves: where BLK is OP, OUT is the block `E(KI, OP)` that DOPC XORs with OP. -/
theorem dopcIsEncXorOp : Obligations.DopcIsEncXorOp := by
  unfold Obligations.DopcIsEncXorOp
  refine ⟨fun s t => opc_of_exec_dopc_ok, fun s d e hblk hd hdok he heok => ?_⟩
  rw [out_of_exec_enc_ok he heok, hblk, opc_of_exec_dopc_ok hd hdok]

/-- Settles O43: DOPC passes its check and its draw, so it commits its one write, to OPC. -/
theorem dopcDerivesTheOpc : Obligations.DopcDerivesTheOpc := by
  unfold Obligations.DopcDerivesTheOpc
  intro s hki hop ho
  have hl : lengthError .dopc s.mge.len = none := by simp [lengthError, hki, hop]
  have hexec := exec_ok .dopc s hl ho
  exact ⟨_, hexec, opc_of_exec_dopc_ok hexec rfl, rfl, keptBut_of_exec hexec, endedOk_complete_ok s.mge _ _,
    outsideKept_finish s _⟩

end Sys2Proof.Machine
end

section
/-! PROOFS. EVAL (43_milenage.md R160, R161): RES, CK and IK are the three outputs of the Milenage core. -/

namespace Sys2Proof.Machine

/-- R7: byte `i` of the last half is byte `i + 8`. -/
@[simp] theorem lastHalf_get (v : Block) (i : Fin 8) : (lastHalf v).get i = v[i.val + 8]'(by omega) := by
  simp [lastHalf, Vector.get_eq_getElem]

/-- R161: a success commits the three outputs of `M(KI, OPC, RAND)`, one to each result slot. -/
theorem results_of_exec_eval_ok {s t : State} (h : exec .eval s = .next t) (he : t.mge.err = false) :
    t.mge.x.res = (milenageOf s.mge.x.ki s.mge.x.opc s.mge.x.rand).res ∧
    t.mge.x.ck = (milenageOf s.mge.x.ki s.mge.x.opc s.mge.x.rand).ck ∧
    t.mge.x.ik = (milenageOf s.mge.x.ki s.mge.x.opc s.mge.x.rand).ik := by
  obtain ⟨-, -, hm⟩ := mge_of_exec_ok h he
  rw [hm]
  exact ⟨rfl, rfl, rfl⟩

/-! ### The statement -/

/-- Settles O44: EVAL passes its checks and its draws, so it commits `milenageOf` of its operands, whose fields are R160's
formulas. -/
theorem evalComputesMilenage : Obligations.EvalComputesMilenage := by
  unfold Obligations.EvalComputesMilenage
  intro s hki hopc hrand ho k o u
  have hl : lengthError .eval s.mge.len = none := by simp [lengthError, hki, hopc, hrand]
  have hexec := exec_ok .eval s hl ho
  obtain ⟨hres, hck, hik⟩ := results_of_exec_eval_ok hexec rfl
  refine ⟨_, hexec, fun i => ?_, hck, hik, rfl, rfl, rfl, keptBut_of_exec hexec, endedOk_complete_ok s.mge _ _,
    outsideKept_finish s _⟩
  rw [hres]
  exact lastHalf_get _ i

end Sys2Proof.Machine
end

section
/-! PROOFS. The reducer (44_reduce.md R180 to R183): FRES and FCK commit the folds of their operands and make no invocation. -/

namespace Sys2Proof.Machine

/-! ### The folds, byte by byte -/

/-- R180. -/
@[simp] theorem foldRes_get (res : Bytes 8) (i : Fin 4) :
    (foldRes res).get i = res[i.val]'(by omega) ^^^ res[i.val + 4]'(by omega) := by
  simp [foldRes, Vector.get_eq_getElem]

/-- R182. -/
@[simp] theorem foldCk_get (ck ik : Block) (i : Fin 8) :
    (foldCk ck ik).get i = ck[i.val]'(by omega) ^^^ ck[i.val + 8]'(by omega) ^^^ ik[i.val]'(by omega) ^^^
      ik[i.val + 8]'(by omega) := by
  simp [foldCk, Vector.get_eq_getElem]

/-! ### What a success commits -/

/-- A command that makes no invocation passes every draw. -/
theorem Oracle.allOk_zero (o : Oracle) : o.allOk 0 :=
  fun k hk => absurd hk k.not_lt_zero

/-- R181: a success of FRES commits the fold of RES to SRES. -/
theorem sres_of_exec_fres_ok {s t : State} (h : exec .fres s = .next t) (he : t.mge.err = false) :
    t.mge.x.sres = foldRes s.mge.x.res := by
  obtain ⟨-, -, hm⟩ := mge_of_exec_ok h he
  rw [hm]
  rfl

/-- R183: a success of FCK commits the fold of CK and IK to KC. -/
theorem kc_of_exec_fck_ok {s t : State} (h : exec .fck s = .next t) (he : t.mge.err = false) :
    t.mge.x.kc = foldCk s.mge.x.ck s.mge.x.ik := by
  obtain ⟨-, -, hm⟩ := mge_of_exec_ok h he
  rw [hm]
  rfl

/-! ### The statements -/

/-- Settles O45: FRES passes its check and makes no draw, so it commits its one write, to SRES. -/
theorem fresFoldsTheResponse : Obligations.FresFoldsTheResponse := by
  unfold Obligations.FresFoldsTheResponse
  intro s hres
  have hl : lengthError .fres s.mge.len = none := by simp [lengthError, hres]
  have hexec := exec_ok .fres s hl s.oracle.allOk_zero
  refine ⟨_, hexec, fun i => ?_, rfl, keptBut_of_exec hexec, endedOk_complete_ok s.mge _ _, outsideKept_finish s _⟩
  rw [sres_of_exec_fres_ok hexec rfl]
  exact foldRes_get _ i

/-- Settles O46: FCK passes its check and makes no draw, so it commits its one write, to KC. -/
theorem fckFoldsTheKeys : Obligations.FckFoldsTheKeys := by
  unfold Obligations.FckFoldsTheKeys
  intro s hck hik
  have hl : lengthError .fck s.mge.len = none := by simp [lengthError, hck, hik]
  have hexec := exec_ok .fck s hl s.oracle.allOk_zero
  refine ⟨_, hexec, fun i => ?_, rfl, keptBut_of_exec hexec, endedOk_complete_ok s.mge _ _, outsideKept_finish s _⟩
  rw [kc_of_exec_fck_ok hexec rfl]
  exact foldCk_get _ _ i

end Sys2Proof.Machine
end

section
/-! PROOFS. The triplet service (45_triplet.md R190 to R192): GEN and GEN.U commit the folds of `M`, GEN is the four commands
composed, and GEN.U equals GEN where the host has loaded the right OPC. -/

namespace Sys2Proof.Machine

/-! ### The folds of `M`, byte by byte -/

/-- R160, R180: RES is the last half of `t3`, so its fold takes bytes 8 to 11 of `t3` with bytes 12 to 15. -/
theorem foldRes_milenageOf_get (k o r : Block) (i : Fin 4) :
    (foldRes (milenageOf k o r).res).get i =
      (xorB (E k (flip (midOf k o r) 0x01#8)) o)[i.val + 8]'(by omega) ^^^
      (xorB (E k (flip (midOf k o r) 0x01#8)) o)[i.val + 12]'(by omega) := by
  rw [foldRes_get]
  exact congrArg₂ (· ^^^ ·) (lastHalf_get _ ⟨i.val, by omega⟩) (lastHalf_get _ ⟨i.val + 4, by omega⟩)

/-- R160, R182. -/
theorem foldCk_milenageOf_get (k o r : Block) (i : Fin 8) :
    (foldCk (milenageOf k o r).ck (milenageOf k o r).ik).get i =
      (xorB (E k (flip (rotb (midOf k o r) 4) 0x02#8)) o)[i.val]'(by omega) ^^^
      (xorB (E k (flip (rotb (midOf k o r) 4) 0x02#8)) o)[i.val + 8]'(by omega) ^^^
      (xorB (E k (flip (rotb (midOf k o r) 8) 0x04#8)) o)[i.val]'(by omega) ^^^
      (xorB (E k (flip (rotb (midOf k o r) 8) 0x04#8)) o)[i.val + 8]'(by omega) :=
  foldCk_get _ _ i

/-! ### What a success commits -/

/-- The outputs of `M` that GEN with U = 0 folds: those on the OPC of KI and OP (R190). -/
def genOutputs (x : Slots) : MOut := milenageOf x.ki (opcOf x.ki x.op) x.rand

/-- The host's duty makes the OPC slot as good as the derivation (R192). -/
theorem milenageOf_eq_genOutputs {m : Mge} (h : m.opcDuty) : milenageOf m.x.ki m.x.opc m.x.rand = genOutputs m.x :=
  congrArg (milenageOf m.x.ki · m.x.rand) h

/-- R190 with U = 0: a success commits the derived OPC and the folds of `M` on it. -/
theorem triplet_of_exec_gen_ok {s t : State} (h : exec .gen s = .next t) (he : t.mge.err = false) :
    t.mge.x.opc = opcOf s.mge.x.ki s.mge.x.op ∧
    t.mge.x.sres = foldRes (genOutputs s.mge.x).res ∧
    t.mge.x.kc = foldCk (genOutputs s.mge.x).ck (genOutputs s.mge.x).ik := by
  obtain ⟨-, -, hm⟩ := mge_of_exec_ok h he
  rw [hm]
  exact ⟨rfl, rfl, rfl⟩

/-- R190 with U = 1: a success commits the folds of `M` on the OPC its slot holds. -/
theorem triplet_of_exec_genU_ok {s t : State} (h : exec .genU s = .next t) (he : t.mge.err = false) :
    t.mge.x.sres = foldRes (milenageOf s.mge.x.ki s.mge.x.opc s.mge.x.rand).res ∧
    t.mge.x.kc = foldCk (milenageOf s.mge.x.ki s.mge.x.opc s.mge.x.rand).ck
      (milenageOf s.mge.x.ki s.mge.x.opc s.mge.x.rand).ik := by
  obtain ⟨-, -, hm⟩ := mge_of_exec_ok h he
  rw [hm]
  exact ⟨rfl, rfl⟩

/-! ### Commands in a row -/

/-- When the first `n + k` draws are ok, so are the `k` that follow a command of `n` invocations (R208). -/
theorem Oracle.allOk.advance {o : Oracle} {n k : Nat} (h : o.allOk (n + k)) : (o.advance n).allOk k := by
  intro j hj
  rw [drawAt_advance]
  exact h (n + j) (by omega)

theorem Oracle.allOk.mono {o : Oracle} {n k : Nat} (h : o.allOk k) (hn : n ≤ k) : o.allOk n :=
  fun j hj => h j (by omega)

/-- A command with its lengths right and its draws ok succeeds and uses one draw for each of its invocations (R207, R208). -/
theorem exists_exec_ok (i : Instr) (s : State) (hl : lengthError i s.mge.len = none)
    (ho : s.oracle.allOk (invocationsOf i)) :
    ∃ t, exec i s = .next t ∧ t.mge.err = false ∧ t.oracle = s.oracle.advance (invocationsOf i) :=
  ⟨_, exec_ok i s hl ho, rfl, rfl⟩

/-- `s` goes to `d` through `a`, `b` and `c` by a success of each of DOPC, EVAL, FRES and FCK in a row (R191). -/
structure FourCommands (s a b c d : State) : Prop where
  dopc : exec .dopc s = .next a
  eval : exec .eval a = .next b
  fres : exec .fres b = .next c
  fck : exec .fck c = .next d
  dopcOk : a.mge.err = false
  evalOk : b.mge.err = false
  fresOk : c.mge.err = false
  fckOk : d.mge.err = false

/-- Each of the four commands finds the lengths it checks, as GEN's own operands or as what the command before it declared,
and the draws it makes among GEN's five. -/
theorem exists_fourCommands {s : State} (hki : s.mge.len.ki = 16#8) (hop : s.mge.len.op = 16#8)
    (hrand : s.mge.len.rand = 16#8) (ho : s.oracle.allOk 5) : ∃ a b c d, FourCommands s a b c d := by
  obtain ⟨a, ha, hea, hoa⟩ := exists_exec_ok .dopc s (by simp [lengthError, hki, hop]) (ho.mono (by decide))
  have hkia : a.mge.len.ki = 16#8 := (keptBut_of_exec ha .ki (by decide)).2.trans hki
  have hranda : a.mge.len.rand = 16#8 := (keptBut_of_exec ha .rand (by decide)).2.trans hrand
  have hopca : a.mge.len.opc = 16#8 := len_of_exec_ok ha hea (sl := .opc) (by decide)
  have hdraws : a.oracle.allOk 4 := hoa ▸ Oracle.allOk.advance (n := 1) ho
  obtain ⟨b, hb, heb, -⟩ := exists_exec_ok .eval a (by simp [lengthError, hkia, hranda, hopca]) hdraws
  have hresb : b.mge.len.res = 8#8 := len_of_exec_ok hb heb (sl := .res) (by decide)
  have hckb : b.mge.len.ck = 16#8 := len_of_exec_ok hb heb (sl := .ck) (by decide)
  have hikb : b.mge.len.ik = 16#8 := len_of_exec_ok hb heb (sl := .ik) (by decide)
  obtain ⟨c, hc, hec, -⟩ := exists_exec_ok .fres b (by simp [lengthError, hresb]) b.oracle.allOk_zero
  have hckc : c.mge.len.ck = 16#8 := (keptBut_of_exec hc .ck (by decide)).2.trans hckb
  have hikc : c.mge.len.ik = 16#8 := (keptBut_of_exec hc .ik (by decide)).2.trans hikb
  obtain ⟨d, hd, hed, -⟩ := exists_exec_ok .fck c (by simp [lengthError, hckc, hikc]) c.oracle.allOk_zero
  exact ⟨a, b, c, d, ha, hb, hc, hd, hea, heb, hec, hed⟩

/-- EVAL after DOPC works on the derived OPC (R150, R161). -/
theorem FourCommands.eval_results {s a b c d : State} (h : FourCommands s a b c d) :
    b.mge.x.res = (genOutputs s.mge.x).res ∧
    b.mge.x.ck = (genOutputs s.mge.x).ck ∧
    b.mge.x.ik = (genOutputs s.mge.x).ik := by
  have hki : a.mge.x.ki = s.mge.x.ki := (keptBut_of_exec h.dopc .ki (by decide)).1
  have hrand : a.mge.x.rand = s.mge.x.rand := (keptBut_of_exec h.dopc .rand (by decide)).1
  have hopc : a.mge.x.opc = opcOf s.mge.x.ki s.mge.x.op := opc_of_exec_dopc_ok h.dopc h.dopcOk
  rw [genOutputs, ← hopc, ← hki, ← hrand]
  exact results_of_exec_eval_ok h.eval h.evalOk

/-- What the four commands leave in the slots GEN writes: what GEN leaves there by `triplet_of_exec_gen_ok`. -/
theorem FourCommands.triplet {s a b c d : State} (h : FourCommands s a b c d) :
    d.mge.x.opc = opcOf s.mge.x.ki s.mge.x.op ∧
    d.mge.x.sres = foldRes (genOutputs s.mge.x).res ∧
    d.mge.x.kc = foldCk (genOutputs s.mge.x).ck (genOutputs s.mge.x).ik := by
  obtain ⟨hres, hck, hik⟩ := h.eval_results
  refine ⟨?_, ?_, ?_⟩
  · have hfck : d.mge.x.opc = c.mge.x.opc := (keptBut_of_exec h.fck .opc (by decide)).1
    have hfres : c.mge.x.opc = b.mge.x.opc := (keptBut_of_exec h.fres .opc (by decide)).1
    have heval : b.mge.x.opc = a.mge.x.opc := (keptBut_of_exec h.eval .opc (by decide)).1
    rw [hfck, hfres, heval]
    exact opc_of_exec_dopc_ok h.dopc h.dopcOk
  · have hfck : d.mge.x.sres = c.mge.x.sres := (keptBut_of_exec h.fck .sres (by decide)).1
    rw [hfck, sres_of_exec_fres_ok h.fres h.fresOk, hres]
  · have hckc : c.mge.x.ck = b.mge.x.ck := (keptBut_of_exec h.fres .ck (by decide)).1
    have hikc : c.mge.x.ik = b.mge.x.ik := (keptBut_of_exec h.fres .ik (by decide)).1
    rw [kc_of_exec_fck_ok h.fck h.fckOk, hckc, hikc, hck, hik]

/-! ### The statements -/

/-- Settles O47: GEN passes its check and its five draws, so it commits the derived OPC and the folds of `M` on it. -/
theorem genMakesTheTriplet : Obligations.GenMakesTheTriplet := by
  unfold Obligations.GenMakesTheTriplet
  intro s hki hop hrand ho k o u t3 ck ik
  have hl : lengthError .gen s.mge.len = none := by simp [lengthError, hki, hop, hrand]
  have hexec := exec_ok .gen s hl ho
  obtain ⟨hopc, hsres, hkc⟩ := triplet_of_exec_gen_ok hexec rfl
  refine ⟨_, hexec, hopc, fun i => ?_, fun i => ?_, rfl, rfl, rfl, keptBut_of_exec hexec, endedOk_complete_ok s.mge _ _,
    outsideKept_finish s _⟩
  · rw [hsres]
    exact foldRes_milenageOf_get k o s.mge.x.rand i
  · rw [hkc]
    exact foldCk_milenageOf_get k o s.mge.x.rand i

/-- Settles O48: GEN.U passes its checks and its four draws, so it commits the folds of `M` on what the OPC slot holds. -/
theorem genUMakesTheTripletFromTheOpcSlot : Obligations.GenUMakesTheTripletFromTheOpcSlot := by
  unfold Obligations.GenUMakesTheTripletFromTheOpcSlot
  intro s hki hop hrand hopc ho k o u t3 ck ik
  have hl : lengthError .genU s.mge.len = none := by simp [lengthError, hki, hop, hrand, hopc]
  have hexec := exec_ok .genU s hl ho
  obtain ⟨hsres, hkc⟩ := triplet_of_exec_genU_ok hexec rfl
  refine ⟨_, hexec, fun i => ?_, fun i => ?_, rfl, rfl, keptBut_of_exec hexec, endedOk_complete_ok s.mge _ _,
    outsideKept_finish s _⟩
  · rw [hsres]
    exact foldRes_milenageOf_get k o s.mge.x.rand i
  · rw [hkc]
    exact foldCk_milenageOf_get k o s.mge.x.rand i

/-- Settles O50: GEN and the four commands leave the same functions of KI, OP and RAND, and RES, CK and IK are no result of
GEN. -/
theorem genIsTheFourCommandsComposed : Obligations.GenIsTheFourCommandsComposed := by
  unfold Obligations.GenIsTheFourCommandsComposed
  intro s hki hop hrand ho
  obtain ⟨g, hg, heg, -⟩ := exists_exec_ok .gen s (by simp [lengthError, hki, hop, hrand]) ho
  obtain ⟨a, b, c, d, h⟩ := exists_fourCommands hki hop hrand ho
  obtain ⟨hopc, hsres, hkc⟩ := triplet_of_exec_gen_ok hg heg
  obtain ⟨hopcd, hsresd, hkcd⟩ := h.triplet
  have hkept := keptBut_of_exec hg
  exact ⟨g, a, b, c, d, hg, h.dopc, h.eval, h.fres, h.fck, heg, h.dopcOk, h.evalOk, h.fresOk, h.fckOk,
    hopc.trans hopcd.symm, hsres.trans hsresd.symm, hkc.trans hkcd.symm,
    (hkept .res (by decide)).1, (hkept .ck (by decide)).1, (hkept .ik (by decide)).1⟩

/-- Settles O51: under the host's duty the OPC that GEN.U reads and keeps is the one that GEN derives and writes. -/
theorem genUWithTheRightOpcEqualsGen : Obligations.GenUWithTheRightOpcEqualsGen := by
  unfold Obligations.GenUWithTheRightOpcEqualsGen
  intro s t g hduty ht het hg heg
  obtain ⟨hsres, hkc⟩ := triplet_of_exec_genU_ok ht het
  obtain ⟨hopcg, hsresg, hkcg⟩ := triplet_of_exec_gen_ok hg heg
  rw [milenageOf_eq_genOutputs hduty] at hsres hkc
  have hopc : t.mge.x.opc = s.mge.x.opc := (keptBut_of_exec ht .opc (by decide)).1
  exact ⟨hsres.trans hsresg.symm, hkc.trans hkcg.symm, (hopc.trans hduty).trans hopcg.symm⟩

end Sys2Proof.Machine
end

section
/-! PROOFS. The end of a command (60_exceptions.md R200 to R207): acceptance at CMD, the status a completion leaves, the errors a
command can report, and how long OVR stays (R213). -/

namespace Sys2Proof.Machine

/-! ### The status a completion leaves, R207 -/

@[simp] theorem complete_done (m : Mge) (r : Run (List SlotWrite)) : (m.complete r).done = true := by
  cases r <;> rfl

@[simp] theorem complete_ncalls (m : Mge) (r : Run (List SlotWrite)) :
    (m.complete r).ncalls = BitVec.ofNat 8 r.calls := by
  cases r <;> rfl

/-- R26: ERRCODE is 0 exactly after a success, since no error has the code 0. -/
theorem complete_errcode_eq_zero_iff (m : Mge) (r : Run (List SlotWrite)) :
    (m.complete r).errcode = 0x00#8 ↔ (m.complete r).err = false := by
  cases r with
  | ok ws n => simp
  | err e n => simp [code_ne_zero e]

/-- A command makes so few invocations that NCALLS holds their number as it is (R27). -/
theorem toNat_complete_ncalls_runOf (i : Instr) (m m' : Mge) (o : Oracle) :
    (m'.complete (runOf i m o)).ncalls.toNat = (runOf i m o).calls := by
  have hcalls : (runOf i m o).calls ≤ 5 := (runOf_calls_le i m o).trans (invocationsOf_le i)
  rw [complete_ncalls, BitVec.toNat_ofNat, Nat.mod_eq_of_lt (by omega)]

/-! ### The errors a command can report, R200 -/

/-- The length errors are among those listed for the command. -/
theorem mem_errorsOf_of_lengthError {i : Instr} {l : Lens} {e : Err} (h : lengthError i l = some e) :
    e ∈ errorsOf i := by
  cases i <;> simp only [lengthError] at h <;> split_ifs at h <;> cases h <;> decide

/-- Every command that makes an invocation lists CIPHER_FAILURE. -/
theorem cipherFailure_mem_errorsOf {i : Instr} (h : 0 < invocationsOf i) : Err.cipherFailure ∈ errorsOf i := by
  cases i <;> revert h <;> decide

/-- A run's error is one that R200 lists for the command. -/
theorem mem_errorsOf_of_runOf {i : Instr} {m : Mge} {o : Oracle} {e : Err} {n : Nat} (h : runOf i m o = .err e n) :
    e ∈ errorsOf i := by
  rcases runOf_cases i m o with ⟨e', he, hrun⟩ | ⟨-, k, hk, -, -, hrun⟩ | ⟨-, -, hrun⟩
  · cases hrun.symm.trans h
    exact mem_errorsOf_of_lengthError he
  · cases hrun.symm.trans h
    exact cipherFailure_mem_errorsOf (k.zero_le.trans_lt hk)
  · cases hrun.symm.trans h

/-! ### BUSY and OVR, R31 and R213 -/

theorem busy_of_pend {m : Mge} (h : m.pend ≠ none) : m.busy = true := Option.isSome_iff_ne_none.2 h

/-- The one host write that clears OVR is a write to STATUS with bit 3 set (R25). -/
theorem memWrite_ovr_of_ovr {m : Mge} (a v : Byte) (h : m.ovr = true) :
    (m.memWrite a v).ovr = true ∨ (a = 0xF1#8 ∧ v.getLsbD 3 = true) := by
  rcases memWrite_cases m a v with ⟨sl, i, -, -, e⟩ | ⟨sl, -, -, e⟩ | ⟨-, -, e⟩ | ⟨-, -, e⟩ | ⟨ha, hv, -⟩ | e
  case inr.inr.inr.inr.inl => exact .inr ⟨eq_of_locate ha rfl, hv⟩
  all_goals
    rw [e]
    exact .inl (by simp [h])

/-! ### The statements -/

/-- Settles O35, by what the completion of any run leaves and the bound on a command's invocations. -/
theorem everyCommandCompletes : Obligations.EveryCommandCompletes := by
  unfold Obligations.EveryCommandCompletes
  intro i s
  have hcalls := toNat_complete_ncalls_runOf i s.mge s.mge s.oracle
  refine ⟨_, exec_eq i s, complete_pend _ _, complete_done _ _, complete_errcode_eq_zero_iff _ _, ?_, complete_ovr _ _, ?_,
    outsideKept_finish s _⟩
  · rw [State.finish_mge, hcalls]
    exact runOf_calls_le i s.mge s.oracle
  · rw [State.finish_mge, hcalls]
    rfl

/-- Settles O36 (`slots_of_exec_err`). -/
theorem failedCommandChangesNoSlot : Obligations.FailedCommandChangesNoSlot :=
  fun _ _ _ => slots_of_exec_err

/-- Settles O39, by whether the command's run ended with its writes or with an error, which R200 lists. -/
theorem commandReportsOnlyItsErrors : Obligations.CommandReportsOnlyItsErrors := by
  unfold Obligations.CommandReportsOnlyItsErrors
  refine ⟨rfl, rfl, rfl, rfl, rfl, fun i s t h => ?_⟩
  obtain rfl := eq_finish_of_exec h
  rw [State.finish_mge]
  cases hrun : runOf i s.mge s.oracle with
  | ok ws n => exact .inl ⟨rfl, rfl⟩
  | err e n => exact .inr ⟨rfl, e, mem_errorsOf_of_runOf hrun, rfl⟩

/-- Settles O34: the write equation of CMD, idle and BUSY. -/
theorem cmdWriteAcceptsWhenIdle : Obligations.CmdWriteAcceptsWhenIdle := by
  unfold Obligations.CmdWriteAcceptsWhenIdle
  refine ⟨memWrite_cmd_idle, fun m v hpend => ?_⟩
  rw [memWrite_cmd, if_pos (busy_of_pend hpend)]
  rfl

/-- Settles O30: a write that sets OVR came while BUSY, so it changes OVR alone (`memWrite_pend`); and of the three agents only
the host, by its write to STATUS, and reset clear OVR. -/
theorem ovrStaysUntilCleared : Obligations.OvrStaysUntilCleared := by
  unfold Obligations.OvrStaysUntilCleared
  refine ⟨fun m a v h0 h1 => ?_, fun s t hovr hstep => ?_⟩
  · obtain ⟨hpend, -⟩ := lost_of_memWrite_ovr h0 h1
    obtain ⟨b, hb⟩ := memWrite_pend m a v hpend
    rw [hb]
    exact ⟨rfl, rfl, rfl⟩
  · rcases step_cases s t hstep with ⟨hturn, hhost⟩ | ⟨-, hengine⟩ | ⟨hturn, -⟩
    · rcases hhost.mge with ⟨e, -⟩ | ⟨a, v, e, htrace⟩
      · exact .inl (e ▸ hovr)
      · rcases memWrite_ovr_of_ovr a v hovr with hstays | ⟨rfl, hv⟩
        · exact .inl (e ▸ hstays)
        · exact .inr (.inr ⟨hturn, v, hv, htrace⟩)
    · exact .inl ((engineStep_ovr hengine).trans hovr)
    · exact .inr (.inl hturn)

end Sys2Proof.Machine
end

section
/-! PROOFS. The order of moves (60_exceptions.md R208): whose turn it is, when the machine stops, and that a pending command
comes to its end. -/

namespace Sys2Proof.Machine

/-! ### Whose turn it is -/

theorem turn_of_agenda_cons {s : State} {a : Turn} {ts : List Turn} (h : s.agenda = a :: ts) : s.turn = a := by
  rw [State.turn, h]

/-- With no move listed a pending command is the engine's to run: the model's weak fairness. -/
theorem turn_of_agenda_nil_of_pend {s : State} (h : s.agenda = []) (hp : s.mge.pend ≠ none) : s.turn = .engine := by
  rw [State.turn, h]
  exact if_pos (busy_of_pend hp)

theorem turn_of_agenda_nil_of_idle {s : State} (h : s.agenda = []) (hp : s.mge.pend = none) : s.turn = .host := by
  simp only [State.turn, h, Mge.busy, hp]
  rfl

theorem pop_of_agenda_nil {s : State} (h : s.agenda = []) : s.pop = s := by
  rw [State.pop, h, List.tail_nil, ← h]

theorem step_of_host_turn {s : State} (h : s.turn = .host) : step s = s.pop.hostStep := by
  rw [step, h]

theorem step_of_reset_turn {s : State} (h : s.turn = .reset) : step s = .next s.pop.resetEvent := by
  rw [step, h]

/-! ### The agents' moves, case by case -/

theorem engineStep_of_idle {s : State} (h : s.mge.pend = none) : s.engineStep = .next s := by
  simp only [State.engineStep, h]

theorem engineStep_of_legal {s : State} {c : Byte} {i : Instr} (hp : s.mge.pend = some c) (hd : decode c = .legal i) :
    s.engineStep = exec i s := by
  simp only [State.engineStep, hp, hd]

theorem hostStep_of_no_line {s : State} (h : s.host.line = none) : s.hostStep = .next s := by
  simp only [State.hostStep, h]

theorem hostStep_of_line {s : State} {line : HostLine} (h : s.host.line = some line) :
    s.hostStep = s.hostStmt line.stmt := by
  simp only [State.hostStep, h]

/-- A legal word decodes from its byte (R84). -/
theorem decode_of_decodeTableWord {nbits w : Nat} {i : Instr} (h : decodeTableWord nbits w = some i) :
    decode (tableByte nbits w) = .legal i := by
  unfold decodeTableWord at h
  cases hd : decode (tableByte nbits w) with
  | legal j => simpa [hd] using h
  | illegal c => simp [hd] at h

/-- The engine's move with a command pending shows DONE (R207). -/
theorem engineStep_done {s t : State} (h : s.engineStep = .next t) (hp : s.mge.pend ≠ none) : t.mge.done = true := by
  rcases engineStep_cases s t h with ⟨hidle, -⟩ | ⟨c, i, -, -, rfl⟩ | ⟨c, d, -, -, rfl⟩
  · exact absurd hidle hp
  · exact complete_done _ _
  · exact complete_done _ _

/-- On the engine's turn a pending command is completed in this very step (R207). -/
theorem exists_completion_of_engine_turn {s : State} (hturn : s.turn = .engine) (hp : s.mge.pend ≠ none) :
    ∃ t, step s = .next t ∧ t.mge.pend = none ∧ s.pop.engineStep = .next t ∧ t.mge.done = true := by
  obtain ⟨t, ht⟩ := engineStep_next s.pop
  exact ⟨t, (step_of_engine_turn hturn).trans ht, engineStep_pend ht, ht, engineStep_done ht hp⟩

/-! ### The stops -/

/-- `out` is one of the host's two stops: a jump with no target (log entry 6), or an access of another width than one byte
(R56). -/
def HostStop (h : HostAgent) (out : Host.Outcome State Fault Refusal) : Prop :=
  (∃ l, h.target l = none ∧ out = .fault (.undefinedLabel l)) ∨ (∃ n, n ≠ 1 ∧ out = .refused (.accessWidth n))

/-- A jump goes on, or its label is not among the program's (R87). -/
theorem hostStmt_jmp_cases (s : State) (l : String) :
    (∃ t, s.hostStmt (.jmp l) = .next t) ∨
    ((labelsOf s.host.prog).contains l = false ∧ HostStop s.host (s.hostStmt (.jmp l))) := by
  cases hl : s.host.target l with
  | some p => exact .inl ⟨_, hostStmt_jmp_of_target hl⟩
  | none =>
    refine .inr ⟨?_, .inl ⟨l, hl, hostStmt_jmp_of_no_target hl⟩⟩
    by_contra hc
    obtain ⟨t, ht, -⟩ := hostJump_of_label s l (by simpa using hc)
    cases ht.symm.trans (hostStmt_jmp_of_no_target hl)

/-- A statement goes on, or it is ill-formed and stops the host (R56, R87). -/
theorem hostStmt_next_or_stop (s : State) (st : HostStmt) :
    (∃ t, s.hostStmt st = .next t) ∨
    (stmtWF (labelsOf s.host.prog) st = false ∧ HostStop s.host (s.hostStmt st)) := by
  cases st with
  | wr a v => exact .inl ⟨_, hostStmt_wr s a v⟩
  | rd a h => exact .inl ⟨_, hostStmt_rd s a h⟩
  | poll a m v => exact .inl ⟨_, hostStmt_poll s a m v⟩
  | jnz h m l =>
    by_cases hz : s.host.get h &&& m = 0#8
    · exact .inl ⟨_, hostStmt_jnz_zero l hz⟩
    · rw [hostStmt_jnz_nonzero l hz]
      exact hostStmt_jmp_cases s l
  | jmp l => exact hostStmt_jmp_cases s l
  | readWide a n =>
    by_cases hn : n = 1
    · subst hn
      exact .inl ⟨_, hostStmt_readWide_one s a⟩
    · exact .inr ⟨beq_false_of_ne hn, .inr ⟨n, hn, hostStmt_readWide_ne_one s a hn⟩⟩
  | writeWide a n v =>
    by_cases hn : n = 1
    · subst hn
      exact .inl ⟨_, hostStmt_writeWide_one s a v⟩
    · exact .inr ⟨beq_false_of_ne hn, .inr ⟨n, hn, hostStmt_writeWide_ne_one s a v hn⟩⟩

/-- A well-formed program's lines are well-formed, each under the program's labels. -/
theorem stmtWF_of_programWF {h : HostAgent} {line : HostLine} (hwf : programWF h.prog = true) (hl : h.line = some line) :
    stmtWF (labelsOf h.prog) line.stmt = true := by
  rw [programWF, Bool.and_eq_true, List.all_eq_true] at hwf
  exact hwf.2 line (List.mem_of_getElem? hl)

/-- The host's move goes on, or its program is ill-formed and it stops. -/
theorem hostStep_next_or_stop (s : State) :
    (∃ t, s.hostStep = .next t) ∨ (programWF s.host.prog = false ∧ HostStop s.host s.hostStep) := by
  cases hl : s.host.line with
  | none => exact .inl ⟨s, hostStep_of_no_line hl⟩
  | some line =>
    rw [hostStep_of_line hl]
    refine (hostStmt_next_or_stop s line.stmt).imp_right fun ⟨hstmt, hstop⟩ => ⟨?_, hstop⟩
    by_contra hwf
    simp [stmtWF_of_programWF (by simpa using hwf) hl] at hstmt

/-- Every step goes on, but for the host's move in an ill-formed program (R208: MGE has no stuck state). -/
theorem step_next_or_stop (s : State) :
    (∃ t, step s = .next t) ∨
    (s.turn = .host ∧ programWF s.host.prog = false ∧ HostStop s.host (step s)) := by
  cases hturn : s.turn with
  | host =>
    rw [step_of_host_turn hturn]
    exact (hostStep_next_or_stop s.pop).imp_right fun hstop => ⟨rfl, hstop⟩
  | engine =>
    rw [step_of_engine_turn hturn]
    exact .inl (engineStep_next s.pop)
  | reset => exact .inl ⟨_, step_of_reset_turn hturn⟩

theorem step_next_of_programWF {s : State} (h : programWF s.host.prog = true) : ∃ t, step s = .next t := by
  rcases step_next_or_stop s with hnext | ⟨-, hwf, -⟩
  · exact hnext
  · cases h.symm.trans hwf

/-- No agent changes the host's program (R33: it is an input). -/
theorem step_prog {s t : State} (h : step s = .next t) : t.host.prog = s.host.prog := by
  rcases step_cases s t h with ⟨-, hhost⟩ | ⟨-, hengine⟩ | ⟨-, rfl⟩
  · exact hhost.prog
  · rw [engineStep_host hengine, State.pop_host]
  · rfl

/-! ### The statements -/

/-- Settles O11 (`step_next_of_programWF`, `step_prog`). -/
theorem wellFormedProgramNeverStops : Obligations.WellFormedProgramNeverStops := by
  unfold Obligations.WellFormedProgramNeverStops
  intro s hwf
  obtain ⟨t, ht⟩ := step_next_of_programWF hwf
  exact ⟨t, ht, step_prog ht⟩

/-- Settles O12: a step that does not go on is one of the host's two stops. -/
theorem stopsAreTheHostsAlone : Obligations.StopsAreTheHostsAlone := by
  unfold Obligations.StopsAreTheHostsAlone
  intro s
  rcases step_next_or_stop s with ⟨t, e⟩ | ⟨hturn, -, ⟨l, hl, e⟩ | ⟨n, hn, e⟩⟩ <;> rw [e]
  · exact ⟨nofun, nofun⟩
  · refine ⟨fun f hf => ?_, nofun⟩
    cases hf
    exact ⟨hturn, l, rfl, hl⟩
  · refine ⟨nofun, fun r hr => ?_⟩
    cases hr
    exact ⟨hturn, n, hn, rfl⟩

/-- Settles O10, by induction on the moves listed: a host move changes OVR at most (`hostCannotDisturbAPendingCommand`) and
leaves a shorter list; the engine's or the reset's move ends the command, and with none listed the engine's comes. -/
theorem pendingCommandIsCompletedOrAbandoned : Obligations.PendingCommandIsCompletedOrAbandoned := by
  unfold Obligations.PendingCommandIsCompletedOrAbandoned
  intro s hwf hpend
  induction hts : s.agenda generalizing s with
  | nil =>
    have hturn : s.turn = .engine := turn_of_agenda_nil_of_pend hts hpend
    obtain ⟨t, hstep, hidle, hend⟩ := exists_completion_of_engine_turn hturn hpend
    exact ⟨0, le_rfl, s, t, rfl, ⟨s.mge.ovr, rfl⟩, hstep, hidle, .inl ⟨hturn, hend⟩⟩
  | cons a ts ih =>
    have hturn : s.turn = a := turn_of_agenda_cons hts
    cases a with
    | host =>
      obtain ⟨s', hstep⟩ := step_next_of_programWF hwf
      obtain ⟨b, hb⟩ := hostCannotDisturbAPendingCommand s s' hpend hturn hstep
      obtain ⟨hagenda, -⟩ := everyStepIsOneAgentsMove s s' hstep
      have hpend' : s'.mge.pend ≠ none := by rwa [hb]
      obtain ⟨k, hk, u, t, hrun, ⟨b', hb'⟩, hlast, hidle, hend⟩ :=
        ih s' ((step_prog hstep).symm ▸ hwf) hpend' (by rw [hagenda, hts, List.tail_cons])
      refine ⟨k + 1, Nat.succ_le_succ hk, u, t, (core_run_succ core k s s' hstep).trans hrun, ⟨b', ?_⟩, hlast, hidle,
        hend.imp_right fun ⟨hreset, hmem, ht⟩ => ⟨hreset, List.mem_cons_of_mem _ hmem, ht⟩⟩
      rw [hb', hb]
    | engine =>
      obtain ⟨t, hstep, hidle, hend⟩ := exists_completion_of_engine_turn hturn hpend
      exact ⟨0, Nat.zero_le _, s, t, rfl, ⟨s.mge.ovr, rfl⟩, hstep, hidle, .inl ⟨hturn, hend⟩⟩
    | reset =>
      exact ⟨0, Nat.zero_le _, s, _, rfl, ⟨s.mge.ovr, rfl⟩, step_of_reset_turn hturn, rfl,
        .inr ⟨hturn, List.mem_cons_self, rfl⟩⟩

/-- Settles O6: on the engine's turn the step is `engineStep` of the pending byte, and withFetchWord makes it so. -/
theorem stepRunsThePendingCommand : Obligations.StepRunsThePendingCommand := by
  unfold Obligations.StepRunsThePendingCommand
  refine ⟨fun s c i hturn hpend hd => ?_, fun s nbits w i hw => ?_⟩
  · rw [step_of_engine_turn hturn]
    exact engineStep_of_legal (s := s.pop) hpend hd
  · exact engineStep_of_legal (s := { s with mge := s.mge.accept (tableByte nbits w) }) rfl (decode_of_decodeTableWord hw)

/-- Settles O8: a listed move is its agent's, and `pop` gives back the state without it; with none listed, PEND decides. -/
theorem everyAgentCanMoveNext : Obligations.EveryAgentCanMoveNext := by
  unfold Obligations.EveryAgentCanMoveNext
  refine fun s => ⟨rfl, rfl, rfl, fun hnil hpend => ?_, fun hnil hidle => ?_⟩
  · rw [step_of_engine_turn (turn_of_agenda_nil_of_pend hnil hpend), pop_of_agenda_nil hnil]
  · rw [step_of_host_turn (turn_of_agenda_nil_of_idle hnil hidle), pop_of_agenda_nil hnil]

/-- Settles O14: neither the host, with its program ended, nor the engine, with nothing pending, has a move to make. -/
theorem quiescentMachineStaysAsItIs : Obligations.QuiescentMachineStaysAsItIs := by
  unfold Obligations.QuiescentMachineStaysAsItIs
  intro s hquiet hreset
  obtain ⟨hidle, hended⟩ := hquiet
  cases hturn : s.turn with
  | host =>
    rw [step_of_host_turn hturn]
    exact hostStep_of_no_line (s := s.pop) hended
  | engine =>
    rw [step_of_engine_turn hturn]
    exact engineStep_of_idle (s := s.pop) hidle
  | reset => exact absurd hturn hreset

end Sys2Proof.Machine
end

section
/-! PROOFS. Reset and what follows it (70_reset_and_hazards.md R230, R232), and NCALLS after a success (R240). -/

namespace Sys2Proof.Machine

/-! ### Commands before loading, R232 -/

/-- R203's first check on lengths that are all 0: of the commands, ENC alone looks at the key's length first. -/
theorem lengthError_of_all_zero {l : Lens} (h : ∀ sl, l.get sl = 0#8) (i : Instr) :
    lengthError i l = some (if i = .enc then .invalidKeyLength else .invalidLength) := by
  have hzero : lengthError i l = lengthError i Lens.zero :=
    lengthError_congr fun sl _ => (h sl).trans (lens_zero_get sl).symm
  rw [hzero]
  cases i <;> rfl

/-! ### The count of a success, R240 -/

/-- A command that succeeded made all its invocations, and NCALLS holds their number (R27, R207). -/
theorem ncalls_of_exec_ok {i : Instr} {s t : State} (h : exec i s = .next t) (he : t.mge.err = false) :
    t.mge.ncalls = BitVec.ofNat 8 (invocationsOf i) := by
  obtain ⟨-, -, hm⟩ := mge_of_exec_ok h he
  rw [hm, Mge.endOk_ncalls]

/-! ### The statements -/

/-- Settles O18: lengths that are all 0 fail the command's first check (`lengthError_of_all_zero`), and a command that fails a
check ends with its error and no invocation (`endedErr_of_lengthError`). -/
theorem commandsFailBeforeLoading : Obligations.CommandsFailBeforeLoading := by
  unfold Obligations.CommandsFailBeforeLoading
  intro i s hlen
  exact ⟨_, exec_eq i s, endedErr_of_lengthError (lengthError_of_all_zero hlen i) (exec_eq i s)⟩

/-- Settles O38: NCALLS is the number of the command's invocations (`ncalls_of_exec_ok`), read off command by command. -/
theorem successfulCommandCountsItsInvocations : Obligations.SuccessfulCommandCountsItsInvocations := by
  unfold Obligations.SuccessfulCommandCountsItsInvocations
  intro i s t h he
  rw [ncalls_of_exec_ok h he]
  cases i <;> rfl

/-- Settles O17: a reset event listed first is the next move, and its step puts MGE at its values right after reset
(`resetLeavesTheSpecValues`) and touches nothing outside MGE. -/
theorem resetEventFromAnyState : Obligations.ResetEventFromAnyState := by
  unfold Obligations.ResetEventFromAnyState
  refine ⟨fun s => turn_of_agenda_cons rfl, fun s hturn => ⟨s.pop.resetEvent, step_of_reset_turn hturn, ?_⟩⟩
  obtain ⟨hdata, hlen, hpend, hdone, herr, hovr, herrcode, hncalls, -⟩ := resetLeavesTheSpecValues
  exact ⟨hdata, hlen, hpend, hdone, herr, hovr, herrcode, hncalls, rfl, rfl, rfl⟩

end Sys2Proof.Machine
end
